-- ==== Sys2Proof/Word.lean ====
section
/-! DEFINITION. The value types of CORE: bytes, times, pins, phases, kinds, arming positions, and the codes of the five levels
of spec/30_encoding.md rule R70. Only types stand here; what is computed from them stands in Decode and in Machine. -/

namespace Sys2Proof

/-- One byte: the unit of the segment buffer and of the wire (R50, R56). -/
abbrev Byte := BitVec 8

/-- A 32-bit unsigned time, in microseconds or in milliseconds (R8: `W_US` = `W_MS` = 32). -/
abbrev Time := BitVec 32

/-- The two pads CORE drives (R27, R28). -/
inductive Pin where
  | clk
  | dio
  deriving DecidableEq, Repr

/-- The configuration of a pad (R11): driven low (the spec's 0) or released to its pull-up (the spec's 1). There is no third. -/
inductive Level where
  | low
  | released
  deriving DecidableEq, Repr

/-- One event `(pin, v)` of the wire trace `W` (R41). -/
structure PinEvent where
  pin : Pin
  level : Level
  deriving DecidableEq, Repr

/-- The ten values of the PHASE register (R22): phases 0 to 8, and the sentinel `PHASE_IDLE`. -/
inductive Phase where
  | p0 | p1 | p2 | p3 | p4 | p5 | p6 | p7 | p8
  | idle
  deriving DecidableEq, Repr

/-- The sub-machine a phase delegates to (R42): the Byte Transmitter, the Start generator, the Stop generator, or none. -/
inductive Kind where
  | byte
  | start
  | stop
  | none
  deriving DecidableEq, Repr

/-- The five values of the PRE register (R34): not arming, or which preconditioning sub-step comes next. -/
inductive Pre where
  | ready
  | relc
  | reld
  | strt
  | done
  deriving DecidableEq, Repr

/-- The place of a byte in the three frames (R72): it is what tells a data byte from a command byte (R76). -/
inductive Place where
  | mode
  | addr
  | data
  | ctrl
  deriving DecidableEq, Repr

/-- A code at one of the five levels of R70. The level is part of the code: the same bits mean different things at different
levels, and a wire byte is read by its place. -/
inductive Code where
  | hostop (w : BitVec 56)
  | armseq (w : BitVec 3)
  | phase (w : BitVec 4)
  | ustep (w : BitVec 5)
  | wirebyte (place : Place) (w : BitVec 8)
  deriving DecidableEq, Repr

/-- Why a code is no operation of spec/opcode_table.json. -/
inductive Reject where
  /-- a HOSTOP word whose bits 52:48 are not zero (R79) -/
  | hostopBits52to48
  /-- a PRE code that selects no sub-step: 0, or 5 to 7 (R82, R83) -/
  | preCode
  /-- a PHASE code 9 to 14 (R83) -/
  | phaseCode
  /-- a USTEP code of kind NONE or with a step beyond its kind's last (R83) -/
  | ustepCode
  /-- a byte that is never emitted at a command place (R83) -/
  | commandByte
  deriving DecidableEq, Repr

end Sys2Proof
end

