-- ==== Sys2Proof/Config.lean ====
section
/-! DEFINITION. What an implementation of CORE fixes: the four timing parameters of R6, which the spec leaves open (D14, U1). -/

namespace Sys2Proof

/-- The four timing parameters of R6. Each is a natural number below 2^32, which is what 32 bits hold. -/
structure Timing where
  /-- `T_MIN_US`, the minimum inter-step interval -/
  minUs : Time
  /-- `T_WDOG_MS`, the watchdog deadline -/
  wdogMs : Time
  /-- `T_SETTLE_US`, the bus-settle hold -/
  settleUs : Time
  /-- `T_START_US`, the start-recognition hold -/
  startUs : Time
  deriving DecidableEq, Repr, Inhabited

/-- This machine's timing parameters. DESIGN CHOICE (log 1), safe: no body, so no proof can see a value, and a claim holds for
every choice R6 admits. -/
opaque Config.timing : Timing

end Sys2Proof
end

