-- ==== Sys2Proof/Syntax.lean ====
section
/-! DEFINITION. The operations of CORE: one constructor per row of spec/opcode_table.json, in the table's order. Every operand
stands at the width its port or field has (R79 to R81, R74 to R76), so every term of the type is an operation the spec has. -/

namespace Sys2Proof

/-- The 40 operations of spec/opcode_table.json, level by level (R70). -/
inductive Instr where
  -- HOSTOP (R79): what a host or a ticker presents at the ports
  | nop
  | tick
  | arm (len pos : BitVec 8) (seg : BitVec 32)
  | clear
  | setbr (on : BitVec 1) (level : BitVec 3)
  | isidle
  | rsvd6
  | rsvd7
  -- ARMSEQ (R82): selected by PRE
  | armRelc
  | armReld
  | armStrt
  | armDone
  -- PHASE (R77): selected by PHASE
  | p0Wrmode
  | p1Stop
  | p2Start
  | p3Wraddr
  | p4Wrdata
  | p5Stop
  | p6Start
  | p7Wrctrl
  | p8Stop
  | idle
  -- USTEP (R78): selected by kind(PHASE) and STEP
  | b0Clklo
  | b1Dbit
  | b2Clkhi
  | b3Acklo
  | b4Ackrel
  | b5Ackhi
  | b6Ackend
  | s0Clkhi
  | s1Dhi
  | s2Dlo
  | t0Clklo
  | t1Dlo
  | t2Clkhi
  | t3Dhi
  -- WIREBYTE (R73 to R76): what CORE emits
  | cmdMode
  | cmdAddr (pos : BitVec 2)
  | cmdCtrl (on : BitVec 1) (level : BitVec 3)
  | data (d : BitVec 8)
  deriving DecidableEq, Repr

end Sys2Proof
end

