-- ==== Sys2Proof/WellFormed.lean ====
section
/-! DEFINITION. Which codes of each level are codes of the spec. The operands of `Instr` stand at their ports' widths, so the
checks are about codes: the reserved and illegal codes of R83 are the ones refused here. -/

namespace Sys2Proof

/-- The steps a kind has (R7, R78): seven for BYTE, three for START, four for STOP, none for NONE. -/
def stepsOfKind : Nat → Nat
  | 0 => 7
  | 1 => 3
  | 2 => 4
  | _ => 0

/-- The codes the spec gives a meaning, level by level. -/
def Code.wellFormed : Code → Bool
  /- R79: bits 52:48 of a HOSTOP word are 0; every 3-bit op has a meaning and the operand bits are free. -/
  | .hostop w => w.extractLsb' 48 5 == 0
  /- R82: PRE 1 to 4 select a sub-step. -/
  | .armseq w => 1 ≤ w.toNat && w.toNat ≤ 4
  /- R77: PHASE 0 to 8 and 15. -/
  | .phase w => w.toNat ≤ 8 || w.toNat == 15
  /- R78: the step is one of its kind's. -/
  | .ustep w => decide ((w.extractLsb' 0 3).toNat < stepsOfKind (w.extractLsb' 3 2).toNat)
  /- R73: the only byte of frame 1. -/
  | .wirebyte .mode w => w == 0x40
  /- R74: 0xC0 to 0xC3. -/
  | .wirebyte .addr w => w.extractLsb' 2 6 == 0b110000
  /- R76: any byte. -/
  | .wirebyte .data _ => true
  /- R75: 0x80 to 0x8F. -/
  | .wirebyte .ctrl w => w.extractLsb' 4 4 == 0b1000

end Sys2Proof
end

