-- ==== Sys2Proof/Decode.lean ====
section
/-! DEFINITION. The decoder and the encoder of the five levels of codes (R70, R73 to R82), and the table-word reading the host
asks for. The decoder is total and refuses by name what R83 says is no code. -/

namespace Sys2Proof

/-! ### The register codes -/

/-- The number held in PHASE (R22): 0 to 8, and 15 for idle (D5). -/
def Phase.code : Phase → BitVec 4
  | .p0 => 0 | .p1 => 1 | .p2 => 2 | .p3 => 3 | .p4 => 4 | .p5 => 5 | .p6 => 6 | .p7 => 7 | .p8 => 8
  | .idle => 15

/-- The number held in PRE (R34). -/
def Pre.code : Pre → BitVec 3
  | .ready => 0 | .relc => 1 | .reld => 2 | .strt => 3 | .done => 4

/-- The phase a PHASE code stands for; 9 to 14 are not states (R22). -/
def phaseOfCode (w : BitVec 4) : Option Phase :=
  match w.toNat with
  | 0 => some .p0 | 1 => some .p1 | 2 => some .p2 | 3 => some .p3 | 4 => some .p4
  | 5 => some .p5 | 6 => some .p6 | 7 => some .p7 | 8 => some .p8
  | 15 => some .idle
  | _ => none

/-- The arming position a PRE code stands for; 5 to 7 are not states (R34). -/
def preOfCode (w : BitVec 3) : Option Pre :=
  match w.toNat with
  | 0 => some .ready | 1 => some .relc | 2 => some .reld | 3 => some .strt | 4 => some .done
  | _ => none

/-- The kind codes of R78 (D24): BYTE 0, START 1, STOP 2, NONE 3. -/
def Kind.code : Kind → BitVec 2
  | .byte => 0 | .start => 1 | .stop => 2 | .none => 3

/-- The kind a 2-bit code stands for (R78). -/
def kindOfCode (w : BitVec 2) : Kind :=
  match w.toNat with
  | 0 => .byte | 1 => .start | 2 => .stop
  | _ => .none

/-! ### The command bytes (R7, R73 to R75) -/

/-- `CMD_MODE` (R7, R73). -/
def cmdModeByte : Byte := 0x40

/-- `CMD_ADDR + zext_8(POS)` (R7, R74). -/
def cmdAddrByte (pos : BitVec 2) : Byte := 0xC0 + pos.setWidth 8

/-- `CMD_CTRL + zext_8(BRIGHT)`, all four bits of BRIGHT (R7, R75; 90_conflicts C1). -/
def cmdCtrlByte (bright : BitVec 4) : Byte := 0x80 + bright.setWidth 8

/-- The BRIGHT value of an on flag and a level: ON in bit 3, LEVEL in bits 2:0 (R29, R81). -/
def brightOf (on : BitVec 1) (level : BitVec 3) : BitVec 4 := on ++ level

/-! ### Decoding -/

/-- A HOSTOP word (R79): `op` in bits 55:53, zero in 52:48, operands below. Operand bits an operation does not use are
ignored. -/
def decodeHostop (w : BitVec 56) : Except Reject Instr :=
  if w.extractLsb' 48 5 = 0 then
    match (w.extractLsb' 53 3).toNat with
    | 0 => .ok .nop
    | 1 => .ok .tick
    | 2 => .ok (.arm (w.extractLsb' 40 8) (w.extractLsb' 32 8) (w.extractLsb' 0 32))
    | 3 => .ok .clear
    | 4 => .ok (.setbr (w.extractLsb' 3 1) (w.extractLsb' 0 3))
    | 5 => .ok .isidle
    | 6 => .ok .rsvd6
    | _ => .ok .rsvd7
  else .error .hostopBits52to48

/-- The command port (R79, R83, R110): only `cmd_op` 2, 3 and 4 are commands; 0, 1 and 5 presented there do nothing, and so do
6 and 7. -/
def decodeCommand (op : BitVec 3) (len pos : BitVec 8) (seg : BitVec 32) (on : BitVec 1) (level : BitVec 3) : Instr :=
  match op.toNat with
  | 2 => .arm len pos seg
  | 3 => .clear
  | 4 => .setbr on level
  | 6 => .rsvd6
  | 7 => .rsvd7
  | _ => .nop

/-- A PRE code (R82). -/
def decodeArmseq (w : BitVec 3) : Except Reject Instr :=
  match w.toNat with
  | 1 => .ok .armRelc
  | 2 => .ok .armReld
  | 3 => .ok .armStrt
  | 4 => .ok .armDone
  | _ => .error .preCode

/-- A PHASE code (R77). -/
def decodePhase (w : BitVec 4) : Except Reject Instr :=
  match w.toNat with
  | 0 => .ok .p0Wrmode
  | 1 => .ok .p1Stop
  | 2 => .ok .p2Start
  | 3 => .ok .p3Wraddr
  | 4 => .ok .p4Wrdata
  | 5 => .ok .p5Stop
  | 6 => .ok .p6Start
  | 7 => .ok .p7Wrctrl
  | 8 => .ok .p8Stop
  | 15 => .ok .idle
  | _ => .error .phaseCode

/-- A USTEP code, kind in bits 4:3 and step in bits 2:0 (R78). -/
def decodeUstep (w : BitVec 5) : Except Reject Instr :=
  match kindOfCode (w.extractLsb' 3 2), (w.extractLsb' 0 3).toNat with
  | .byte, 0 => .ok .b0Clklo
  | .byte, 1 => .ok .b1Dbit
  | .byte, 2 => .ok .b2Clkhi
  | .byte, 3 => .ok .b3Acklo
  | .byte, 4 => .ok .b4Ackrel
  | .byte, 5 => .ok .b5Ackhi
  | .byte, 6 => .ok .b6Ackend
  | .start, 0 => .ok .s0Clkhi
  | .start, 1 => .ok .s1Dhi
  | .start, 2 => .ok .s2Dlo
  | .stop, 0 => .ok .t0Clklo
  | .stop, 1 => .ok .t1Dlo
  | .stop, 2 => .ok .t2Clkhi
  | .stop, 3 => .ok .t3Dhi
  | _, _ => .error .ustepCode

/-- A byte on the wire, read by its place in the frames (R73 to R76). -/
def decodeWirebyte (place : Place) (w : BitVec 8) : Except Reject Instr :=
  match place with
  | .mode => if w = cmdModeByte then .ok .cmdMode else .error .commandByte
  | .addr => if w.extractLsb' 2 6 = 0b110000 then .ok (.cmdAddr (w.extractLsb' 0 2)) else .error .commandByte
  | .data => .ok (.data w)
  | .ctrl =>
    if w.extractLsb' 4 4 = 0b1000 then .ok (.cmdCtrl (w.extractLsb' 3 1) (w.extractLsb' 0 3)) else .error .commandByte

/-- The decoder: any code of any level. -/
def decode : Code → Except Reject Instr
  | .hostop w => decodeHostop w
  | .armseq w => decodeArmseq w
  | .phase w => decodePhase w
  | .ustep w => decodeUstep w
  | .wirebyte place w => decodeWirebyte place w

/-! ### Encoding -/

/-- The HOSTOP word of an op and its 48 operand bits (R79). -/
def hostopWord (op : BitVec 3) (operands : BitVec 48) : BitVec 56 := op ++ (0 : BitVec 5) ++ operands

/-- The USTEP code of a kind and a step (R78). -/
def ustepWord (k : Kind) (step : BitVec 3) : BitVec 5 := k.code ++ step

/-- The encoder: the code each row of spec/opcode_table.json gives its operation. -/
def encode : Instr → Code
  | .nop => .hostop (hostopWord 0 0)
  | .tick => .hostop (hostopWord 1 0)
  | .arm len pos seg => .hostop (hostopWord 2 (len ++ pos ++ seg))
  | .clear => .hostop (hostopWord 3 0)
  | .setbr on level => .hostop (hostopWord 4 ((brightOf on level).setWidth 48))
  | .isidle => .hostop (hostopWord 5 0)
  | .rsvd6 => .hostop (hostopWord 6 0)
  | .rsvd7 => .hostop (hostopWord 7 0)
  | .armRelc => .armseq 1
  | .armReld => .armseq 2
  | .armStrt => .armseq 3
  | .armDone => .armseq 4
  | .p0Wrmode => .phase 0
  | .p1Stop => .phase 1
  | .p2Start => .phase 2
  | .p3Wraddr => .phase 3
  | .p4Wrdata => .phase 4
  | .p5Stop => .phase 5
  | .p6Start => .phase 6
  | .p7Wrctrl => .phase 7
  | .p8Stop => .phase 8
  | .idle => .phase 15
  | .b0Clklo => .ustep (ustepWord .byte 0)
  | .b1Dbit => .ustep (ustepWord .byte 1)
  | .b2Clkhi => .ustep (ustepWord .byte 2)
  | .b3Acklo => .ustep (ustepWord .byte 3)
  | .b4Ackrel => .ustep (ustepWord .byte 4)
  | .b5Ackhi => .ustep (ustepWord .byte 5)
  | .b6Ackend => .ustep (ustepWord .byte 6)
  | .s0Clkhi => .ustep (ustepWord .start 0)
  | .s1Dhi => .ustep (ustepWord .start 1)
  | .s2Dlo => .ustep (ustepWord .start 2)
  | .t0Clklo => .ustep (ustepWord .stop 0)
  | .t1Dlo => .ustep (ustepWord .stop 1)
  | .t2Clkhi => .ustep (ustepWord .stop 2)
  | .t3Dhi => .ustep (ustepWord .stop 3)
  | .cmdMode => .wirebyte .mode cmdModeByte
  | .cmdAddr pos => .wirebyte .addr (cmdAddrByte pos)
  | .cmdCtrl on level => .wirebyte .ctrl (cmdCtrlByte (brightOf on level))
  | .data d => .wirebyte .data d

/-! ### Reading a row of the opcode table by its bits -/

/-- A byte standing alone, with neither its level nor its place: DESIGN CHOICE (log 13). It is read at the narrowest level of
which it is a code (ARMSEQ, then PHASE, then USTEP), else as the command byte it spells, else as data. -/
def codeOfByte (w : BitVec 8) : Code :=
  if (Code.armseq (w.setWidth 3)).wellFormed && w.toNat < 8 then .armseq (w.setWidth 3)
  else if (Code.phase (w.setWidth 4)).wellFormed && w.toNat < 16 then .phase (w.setWidth 4)
  else if (Code.ustep (w.setWidth 5)).wellFormed && w.toNat < 32 then .ustep (w.setWidth 5)
  else if (Code.wirebyte .mode w).wellFormed then .wirebyte .mode w
  else if (Code.wirebyte .addr w).wellFormed then .wirebyte .addr w
  else if (Code.wirebyte .ctrl w).wellFormed then .wirebyte .ctrl w
  else .wirebyte .data w

/-- The code meant by a table word of `nbits` bits: the table's widths name the level (3 ARMSEQ, 4 PHASE, 5 USTEP, 56 HOSTOP),
and 8 bits are a byte standing alone. -/
def codeOfTableWord (nbits w : Nat) : Option Code :=
  if 2 ^ nbits ≤ w then none
  else match nbits with
    | 3 => some (.armseq (BitVec.ofNat 3 w))
    | 4 => some (.phase (BitVec.ofNat 4 w))
    | 5 => some (.ustep (BitVec.ofNat 5 w))
    | 8 => some (codeOfByte (BitVec.ofNat 8 w))
    | 56 => some (.hostop (BitVec.ofNat 56 w))
    | _ => none

/-- The operation the decoder reads from a table word (the host's question). -/
def decodeTableWord (nbits w : Nat) : Option Instr :=
  match codeOfTableWord nbits w with
  | some c => (decode c).toOption
  | none => none

end Sys2Proof
end

