-- ==== Sys2Proof/Machine/State.lean ====
section
/-! DEFINITION. The state of one CORE instance as plain data (R20), the reasons a step can stop, and the state after reset
(R44, R200). -/

namespace Sys2Proof.Machine

/-- The segment buffer SEG as cells `(index, byte)` (R50), in one canonical form: indices rising, no cell equal to what an
unlisted index reads as (`Memory.unlisted`). -/
abbrev Memory := List Host.Cell

/-- What a SEG byte that no cell lists reads as. R36 and R44 leave the reset contents unspecified: DESIGN CHOICE 0x00 (log 3),
unsafe. -/
abbrev Memory.unlisted : Byte := 0

/-- The canonical form of the segment buffer: indices strictly rising and below `NDIG` = 4, no listed byte equal to
`Memory.unlisted`. -/
abbrev Memory.wf (m : Memory) : Prop :=
  m.Pairwise (fun x y => x.1 < y.1) ∧ ∀ c ∈ m, c.1 < 4 ∧ c.2 ≠ Memory.unlisted

/-- One move of an agent (R5), or the assertion of `rst` (R200). The moves still to come are data of the state (log 4). -/
inductive Move where
  /-- `rst` is asserted (R200) -/
  | rst
  /-- TIME: the two counters advance, each by its own amount (R189, R190, D4) -/
  | time (dUs dMs : Nat)
  /-- RECEIVER: starts or stops pulling the data line low (R192) -/
  | receiver (low : Bool)
  /-- ARMSEQ takes its turn: the sub-step that PRE selects (R82) -/
  | armseq
  /-- an operation written as a HOSTOP word is presented on the port it travels on (R79) -/
  | present (w : BitVec 56)
  /-- `cmd_valid` with a command code and the operand ports (R79) -/
  | command (op : BitVec 3) (len pos : BitVec 8) (seg : BitVec 32) (on : BitVec 1) (level : BitVec 3)
  deriving DecidableEq, Repr

/-- The state of the machine: the registers of R20, the trace of R41, the inputs of R43, and the outputs of the step just
taken. -/
structure State where
  /-- PHASE (R22) -/
  phase : Phase
  /-- STEP (R23) -/
  stepCnt : BitVec 3
  /-- BYTE (R24) -/
  byte : Byte
  /-- BITCNT (R25) -/
  bitcnt : BitVec 4
  /-- IDX (R26) -/
  idx : BitVec 3
  /-- CLK (R27) -/
  clk : Level
  /-- DIO (R28) -/
  dio : Level
  /-- BRIGHT (R29) -/
  bright : BitVec 4
  /-- LEN (R30) -/
  len : BitVec 3
  /-- POS (R31) -/
  pos : BitVec 2
  /-- SEG (R36, R50) -/
  seg : Memory
  /-- LAST_US (R32) -/
  lastUs : Time
  /-- START_MS (R33) -/
  startMs : Time
  /-- PRE (R34) -/
  pre : Pre
  /-- DLY_US (R35) -/
  dlyUs : Time
  /-- the wire trace `W` (R41), oldest event first -/
  wire : List PinEvent
  /-- input `now_us` (R189) -/
  nowUs : Time
  /-- input `now_ms` (R190) -/
  nowMs : Time
  /-- input: the receiver is pulling the data line low (R192); no rule reads it (log 7) -/
  rxLow : Bool
  /-- the model's own: the moves still to come, first move first (log 4) -/
  moves : List Move
  /-- the model's own: `ret` of the TICK just executed, `none` if the step just taken executed none (R39, log 6) -/
  tickRet : Option Bool
  /-- the model's own: the result of the ISIDLE just executed, `none` if there was none (R109, log 6) -/
  idleOut : Option Bool
  deriving DecidableEq, Repr

/-- The ways a step can stop with a fault. -/
inductive Fault where
  /-- SEG was read at an index that does not exist. Raised by the completions of phases 3 and 4 only. Safe: R50 proves that no
  reachable state does it (log 11). -/
  | segOutOfRange (index : Nat)
  deriving DecidableEq, Repr

/-- The ways a step can be refused. -/
inductive Refusal where
  /-- An operation whose arm in `exec` has no meaning yet. Safe. No arm is left in this state. -/
  | notModelled (mnemonic : String)
  /-- An executed tick found STEP outside the range of its sub-machine. Raised by TICK and by the PHASE and WIREBYTE rows.
  Safe: R83 asks for no step there and R46 says no run reaches it (log 11). -/
  | noMicroStep
  /-- A presented 56-bit word is no HOSTOP word (R79: bits 52:48 are 0). Raised by the fetch. Safe (log 12). -/
  | notHostop
  deriving DecidableEq, Repr

/-- The outcome of one step of this machine. -/
abbrev Outcome := Host.Outcome State Fault Refusal

/-- The machine right after reset (R44, R200). DESIGN CHOICE, unsafe, where R44 says "unspecified": BYTE, IDX, LEN, POS,
LAST_US, START_MS and DLY_US are 0 (log 2), SEG lists nothing (log 3). The counters start at 0 (log 5), the receiver is not
pulling (log 7), and no move is scheduled (log 4). -/
def State.reset : State where
  phase := .idle
  stepCnt := 0
  byte := 0
  bitcnt := 0
  idx := 0
  clk := .released
  dio := .released
  bright := 0xF
  len := 0
  pos := 0
  seg := []
  lastUs := 0
  startMs := 0
  pre := .ready
  dlyUs := 0
  wire := []
  nowUs := 0
  nowMs := 0
  rxLow := false
  moves := []
  tickRet := none
  idleOut := none

end Sys2Proof.Machine
end

