-- ==== Sys2Proof/Machine/Operands.lean ====
section
/-! DEFINITION. Operand assembly (R80, R81), the bit a data cell drives (R142), and the functions of PHASE (R42, R72, R78). -/

namespace Sys2Proof.Machine

/-- LEN from `arm_len` (R80): 4 above 4, 1 for 0, itself otherwise. -/
def clampLen (len : BitVec 8) : BitVec 3 :=
  if 4 < len.toNat then 4 else if len = 0 then 1 else len.setWidth 3

/-- POS from `arm_pos` (R80): its low two bits. -/
def maskPos (pos : BitVec 8) : BitVec 2 := pos.setWidth 2

/-- `S[i]` of R80: byte `i` of `arm_seg` below the clamped length, zero at and above it. -/
def segByte (seg : BitVec 32) (l : BitVec 3) (i : Nat) : Byte :=
  if i < l.toNat then seg.extractLsb' (8 * i) 8 else 0

/-- The level that sends a bit (R52, R71): 0 is driven low, 1 is released. -/
def levelOfBit (b : Bool) : Level := if b then .released else .low

/-- `kind(PHASE)` (R42). -/
def kindOf : Phase → Kind
  | .p0 | .p3 | .p4 | .p7 => .byte
  | .p1 | .p5 | .p8 => .stop
  | .p2 | .p6 => .start
  | .idle => .none

/-- The phase that emits the byte of a place (R72, R77). -/
def phaseOfPlace : Place → Phase
  | .mode => .p0
  | .addr => .p3
  | .data => .p4
  | .ctrl => .p7

/-- The first phase of a kind in the phase program (R77); NONE is the idle sentinel's. -/
def firstPhaseOfKind : Kind → Phase
  | .byte => .p0
  | .stop => .p1
  | .start => .p2
  | .none => .idle

/-- The USTEP decode signal `{kind(PHASE), STEP}` (R78). -/
def State.ustepCode (s : State) : BitVec 5 := ustepWord (kindOf s.phase) s.stepCnt

end Sys2Proof.Machine
end

