-- ==== Sys2Proof/Machine/Flags.lean ====
section
/-! DEFINITION. Elapsed times (R12), the comparators built on them (R194), and every flag and status output the spec gives
(R38 to R40, R79). -/

namespace Sys2Proof.Machine

/-- `elapsed_us(t) = (now_us - t) mod 2^32` (R12). -/
abbrev State.elapsedUs (s : State) (t : Time) : Time := s.nowUs - t

/-- `elapsed_ms(t) = (now_ms - t) mod 2^32` (R12). -/
abbrev State.elapsedMs (s : State) (t : Time) : Time := s.nowMs - t

/-- The watchdog comparator: strictly more than the deadline since arming (R108 case 2, R194). -/
def watchdogExpired (T : Timing) (s : State) : Bool := T.wdogMs < s.elapsedMs s.startMs

/-- The minimum-interval comparator: strictly less than the interval since the last executed tick (R108 case 3, R194). -/
def tooEarly (T : Timing) (s : State) : Bool := s.elapsedUs s.lastUs < T.minUs

/-- The arming sequencer's comparator: the hold that began at DLY_US has lasted `hold` (R104, R105, R194). -/
def holdElapsed (hold : Time) (s : State) : Bool := hold ≤ s.elapsedUs s.dlyUs

/-- Case 4 of R108: PHASE is not idle, the watchdog has not expired, and the interval has passed. Such a tick is an executed
tick. -/
def executes (T : Timing) (s : State) : Bool := s.phase != .idle && !watchdogExpired T s && !tooEarly T s

/-- The `idle` output (R40): PHASE is the sentinel or the watchdog comparator is true. -/
def idleOutput (T : Timing) (s : State) : Bool := s.phase == .idle || watchdogExpired T s

/-- The `cmd_ready` output (R79): PRE is 0. -/
def State.cmdReady (s : State) : Bool := s.pre == .ready

/-- The `clk_drive_low` output (R27, R79): not CLK. -/
def State.clkDriveLow (s : State) : Bool := s.clk == .low

/-- The `dio_drive_low` output (R28, R79): not DIO. -/
def State.dioDriveLow (s : State) : Bool := s.dio == .low

/-- The clock line: high exactly when CLK is released (R41). -/
def State.clockLineHigh (s : State) : Bool := s.clk == .released

/-- The data line: high exactly when DIO is released and the receiver is not pulling it low (R41, R192). -/
def State.dataLineHigh (s : State) : Bool := s.dio == .released && !s.rxLow

end Sys2Proof.Machine
end

