-- ==== Sys2Proof/Machine/Ops.lean ====
section
/-! DEFINITION. The named operations over pins, memory, time and registers that the meanings share, the watchdog's entry and the
arming that returns from it. -/

namespace Sys2Proof.Machine

/-! ### The segment buffer (R50) -/

/-- The byte a canonical list gives an index. -/
def memGet : Memory → Nat → Byte
  | [], _ => Memory.unlisted
  | (b, w) :: m, a => if b = a then w else memGet m a

/-- A canonical list with one byte changed: a byte equal to `Memory.unlisted` is not listed. -/
def memPut : Memory → Nat → Byte → Memory
  | [], a, v => if v = Memory.unlisted then [] else [(a, v)]
  | (b, w) :: m, a, v =>
    if a < b then (if v = Memory.unlisted then (b, w) :: m else (a, v) :: (b, w) :: m)
    else if a = b then (if v = Memory.unlisted then m else (a, v) :: m)
    else (b, w) :: memPut m a v

/-- `MemRead(i, 1)` (R50): the byte at an index 0 to 3; no other index exists. -/
def memRead (m : Memory) (i : Nat) : Option Byte := if i < 4 then some (memGet m i) else none

/-- `MemWrite(i, 1, v)` (R50); no index but 0 to 3 exists. -/
def memWrite (m : Memory) (i : Nat) (v : Byte) : Option Memory := if i < 4 then some (memPut m i v) else none

/-- The four stores of ARM.LOAD, all at once: `SEG[i] <- S i` for i = 0 to 3 (R101). -/
def memFill (m : Memory) (S : Nat → Byte) : Memory :=
  memPut (memPut (memPut (memPut m 0 (S 0)) 1 (S 1)) 2 (S 2)) 3 (S 3)

/-! ### Pins (R11) -/

/-- `Pin(p) <- v`: sets the pin register and appends the event to `W`, even if the value does not change (D29). -/
def State.drive (s : State) : Pin → Level → State
  | .clk, v => { s with clk := v, wire := s.wire ++ [⟨.clk, v⟩] }
  | .dio, v => { s with dio := v, wire := s.wire ++ [⟨.dio, v⟩] }

/-! ### Steps that happen only when enabled (R13) -/

/-- "A rule whose 'Enabled when' condition is false has no step: nothing happens" (R13). The outcome of a step that is performed
if `enabled`, and that leaves `otherwise` if not. -/
def whenEnabled (enabled : Bool) (performed : Outcome) (otherwise : State) : Outcome :=
  match performed with
  | .next t => .next (if enabled then t else otherwise)
  | .fault f => if enabled then .fault f else .next otherwise
  | .refused r => if enabled then .refused r else .next otherwise

/-! ### The watchdog and the arming (R180 to R187) -/

/-- Entry of WDOG, CORE's one fault: the single assignment PHASE <- 15 (R186). Nothing is saved and no pin is written. -/
def State.takeWatchdog (s : State) : State := { s with phase := .idle }

/-- ARM.LOAD (R101), which is also the return from WDOG (R187): the buffer, LEN, POS, the sequencer and the two timestamps are
loaded, and the arming sequencer is started. CLK and DIO are not touched. -/
def State.armLoad (s : State) (len pos : BitVec 8) (seg : BitVec 32) : State :=
  { s with
    seg := memFill s.seg (segByte seg (clampLen len))
    len := clampLen len
    pos := maskPos pos
    phase := .p0
    stepCnt := 0
    bitcnt := 0
    byte := cmdModeByte
    idx := 0
    lastUs := s.nowUs
    startMs := s.nowMs
    pre := .relc }

/-! ### The environment's moves -/

/-- `rst`, which is construction (R200): the registers and the trace take their reset values in any state (R201), the counters
go on (R202), and so do the receiver and the moves to come. -/
def State.construct (s : State) : State :=
  { State.reset with nowUs := s.nowUs, nowMs := s.nowMs, rxLow := s.rxLow, moves := s.moves }

/-- TIME: both counters advance and wrap at 2^32 (R189, R190). -/
def State.advance (s : State) (dUs dMs : Nat) : State :=
  { s with nowUs := s.nowUs + BitVec.ofNat 32 dUs, nowMs := s.nowMs + BitVec.ofNat 32 dMs }

/-- RECEIVER: the data line is pulled low or let go (R192). -/
def State.setReceiver (s : State) (low : Bool) : State := { s with rxLow := low }

/-- A step begins: its move is taken off the list, and the outputs of the step before end (log 4, log 6). -/
def State.consume (s : State) (rest : List Move) : State := { s with moves := rest, tickRet := none, idleOut := none }

/-- The `ret` of an executed or quiet TICK: 1 exactly when PHASE is 15 after it (R39). -/
def State.recordRet (s : State) : State := { s with tickRet := some (s.phase == .idle) }

end Sys2Proof.Machine
end

