-- ==== Sys2Proof/Machine/Arming.lean ====
section
/-! DEFINITION. The meanings of the ARMSEQ level (R82): the four sub-steps of the arming preconditioning. The holds are lower
bounds (R104, R105, D13): a sub-step may be taken at any time at or after its hold has elapsed. -/

namespace Sys2Proof.Machine

/-- ARM.RELC (R102): the clock line is released. -/
def execArmRelc (s : State) : Outcome :=
  whenEnabled (s.pre == .relc) (.next { s.drive .clk .released with pre := .reld }) s

/-- ARM.RELD (R103): the data line is released and the bus-settle hold begins. -/
def execArmReld (s : State) : Outcome :=
  whenEnabled (s.pre == .reld) (.next { s.drive .dio .released with dlyUs := s.nowUs, pre := .strt }) s

/-- ARM.STRT with given timing parameters (R104): after the bus-settle hold the data line is driven low and the
start-recognition hold begins. -/
def armStrtWith (T : Timing) (s : State) : Outcome :=
  whenEnabled (s.pre == .strt && holdElapsed T.settleUs s)
    (.next { s.drive .dio .low with dlyUs := s.nowUs, pre := .done }) s

/-- ARM.STRT (R104). -/
def execArmStrt (s : State) : Outcome := armStrtWith Config.timing s

/-- ARM.DONE with given timing parameters (R105): after the start-recognition hold the host port is ready again; no pin is
written. -/
def armDoneWith (T : Timing) (s : State) : Outcome :=
  whenEnabled (s.pre == .done && holdElapsed T.startUs s) (.next { s with pre := .ready }) s

/-- ARM.DONE (R105). -/
def execArmDone (s : State) : Outcome := armDoneWith Config.timing s

end Sys2Proof.Machine
end

