-- ==== Sys2Proof/Machine/Completions.lean ====
section
/-! DEFINITION. The completion action of each phase (R77, R121 to R129): registers only, no pin (R120). -/

namespace Sys2Proof.Machine

/-- Phase 0 (R121): the address byte is loaded. -/
def completeP0 (s : State) : Outcome := .next { s with byte := cmdAddrByte s.pos, phase := .p1 }

/-- Phase 1 (R122). -/
def completeP1 (s : State) : Outcome := .next { s with phase := .p2 }

/-- Phase 2 (R123). -/
def completeP2 (s : State) : Outcome := .next { s with phase := .p3 }

/-- Phase 3 (R124): SEG[0] is loaded. -/
def completeP3 (s : State) : Outcome :=
  match memRead s.seg 0 with
  | some b => .next { s with idx := 0, byte := b, phase := .p4 }
  | none => .fault (.segOutOfRange 0)

/-- Phase 4 (R125): the next segment byte while there is one, else phase 5. -/
def completeP4 (s : State) : Outcome :=
  if s.idx.toNat + 1 < s.len.toNat then
    match memRead s.seg (s.idx.toNat + 1) with
    | some b => .next { s with idx := s.idx + 1, byte := b }
    | none => .fault (.segOutOfRange (s.idx.toNat + 1))
  else .next { s with idx := s.idx + 1, phase := .p5 }

/-- Phase 5 (R126): the control byte is loaded; BRIGHT is sampled here and nowhere else (R62). -/
def completeP5 (s : State) : Outcome := .next { s with byte := cmdCtrlByte s.bright, phase := .p6 }

/-- Phase 6 (R127). -/
def completeP6 (s : State) : Outcome := .next { s with phase := .p7 }

/-- Phase 7 (R128). -/
def completeP7 (s : State) : Outcome := .next { s with phase := .p8 }

/-- Phase 8 (R129): the transmission is over. -/
def completeP8 (s : State) : Outcome := .next { s with phase := .idle }

/-- The completion action of the phase rule for PHASE (R111). The idle sentinel has none. -/
def complete (s : State) : Outcome :=
  match s.phase with
  | .p0 => completeP0 s
  | .p1 => completeP1 s
  | .p2 => completeP2 s
  | .p3 => completeP3 s
  | .p4 => completeP4 s
  | .p5 => completeP5 s
  | .p6 => completeP6 s
  | .p7 => completeP7 s
  | .p8 => completeP8 s
  | .idle => .next s

end Sys2Proof.Machine
end

