-- ==== Sys2Proof/Machine/MicroSteps.lean ====
section
/-! DEFINITION. The fourteen micro-steps (R78): what each does to the state, and its `done` signal (R38). Each writes exactly one
pin (R84). -/

namespace Sys2Proof.Machine

/-- What a micro-step yields: the state after it, and `done`. -/
abbrev Micro := State × Bool

/-! ### The Byte Transmitter (R140) -/

/-- B0.CLKLO (R141). -/
def microB0 (s : State) : Micro := ({ s.drive .clk .low with stepCnt := 1 }, false)

/-- B1.DBIT (R142): the data line takes BYTE[0]. -/
def microB1 (s : State) : Micro := ({ s.drive .dio (levelOfBit (s.byte.getLsbD 0)) with stepCnt := 2 }, false)

/-- B2.CLKHI (R143): the byte shifts right, the count goes up, and the incremented count decides the next step. -/
def microB2 (s : State) : Micro :=
  ({ s.drive .clk .released with
      byte := s.byte >>> 1
      bitcnt := s.bitcnt + 1
      stepCnt := if s.bitcnt.toNat + 1 < 8 then 0 else 3 }, false)

/-- B3.ACKLO (R144). -/
def microB3 (s : State) : Micro := ({ s.drive .clk .low with stepCnt := 4 }, false)

/-- B4.ACKREL (R145). -/
def microB4 (s : State) : Micro := ({ s.drive .dio .released with stepCnt := 5 }, false)

/-- B5.ACKHI (R146). -/
def microB5 (s : State) : Micro := ({ s.drive .clk .released with stepCnt := 6 }, false)

/-- B6.ACKEND (R147): the byte is complete. -/
def microB6 (s : State) : Micro := ({ s.drive .clk .low with bitcnt := 0, stepCnt := 0 }, true)

/-! ### The Start generator (R160) -/

/-- S0.CLKHI (R161). -/
def microS0 (s : State) : Micro := ({ s.drive .clk .released with stepCnt := 1 }, false)

/-- S1.DHI (R162). -/
def microS1 (s : State) : Micro := ({ s.drive .dio .released with stepCnt := 2 }, false)

/-- S2.DLO (R163): the start condition; complete. -/
def microS2 (s : State) : Micro := ({ s.drive .dio .low with stepCnt := 0 }, true)

/-! ### The Stop generator (R160) -/

/-- T0.CLKLO (R164). -/
def microT0 (s : State) : Micro := ({ s.drive .clk .low with stepCnt := 1 }, false)

/-- T1.DLO (R165). -/
def microT1 (s : State) : Micro := ({ s.drive .dio .low with stepCnt := 2 }, false)

/-- T2.CLKHI (R166). -/
def microT2 (s : State) : Micro := ({ s.drive .clk .released with stepCnt := 3 }, false)

/-- T3.DHI (R167): the stop condition; complete. -/
def microT3 (s : State) : Micro := ({ s.drive .dio .released with stepCnt := 0 }, true)

/-- The micro-step the pair `(kind(PHASE), STEP)` selects (R78, R111). The pairs R83 calls not reachable select none. -/
def selectMicro (k : Kind) (step : BitVec 3) : Option (State → Micro) :=
  match k, step.toNat with
  | .byte, 0 => some microB0
  | .byte, 1 => some microB1
  | .byte, 2 => some microB2
  | .byte, 3 => some microB3
  | .byte, 4 => some microB4
  | .byte, 5 => some microB5
  | .byte, 6 => some microB6
  | .start, 0 => some microS0
  | .start, 1 => some microS1
  | .start, 2 => some microS2
  | .stop, 0 => some microT0
  | .stop, 1 => some microT1
  | .stop, 2 => some microT2
  | .stop, 3 => some microT3
  | _, _ => none

end Sys2Proof.Machine
end

