-- ==== Sys2Proof/Machine/Tick.lean ====
section
/-! DEFINITION. The executed tick (R108 case 4, R111) and its four views: TICK itself, a phase of the phase program, a micro-step,
and a byte being emitted. Every view is the same atomic step; each is enabled where its rule says (log 8). -/

namespace Sys2Proof.Machine

/-- Case 4 of R108 with a given micro-step and completion action: LAST_US is recorded, the micro-step is performed, the
completion action follows in the same step if `done` = 1 (R111), and `ret` tells whether PHASE is now 15. -/
def runMicro (micro : State → Micro) (completion : State → Outcome) (s : State) : Outcome :=
  let r := micro { s with lastUs := s.nowUs }
  match (if r.2 then completion r.1 else .next r.1) with
  | .next t => .next t.recordRet
  | .fault f => .fault f
  | .refused e => .refused e

/-- Case 4 of R108 with the micro-step that `(kind(PHASE), STEP)` selects. Where none is selected (R83: "a model need give them
no step") the step is refused by name. -/
def runSelected (completion : State → Outcome) (s : State) : Outcome :=
  match selectMicro (kindOf s.phase) s.stepCnt with
  | some micro => runMicro micro completion s
  | none => .refused .noMicroStep

/-- Cases 1 to 3 of R108: nothing changes, but that an expired watchdog forces PHASE to 15 when it is not 15 already; `ret` as
R39. -/
def quietTick (T : Timing) (s : State) : State :=
  (if s.phase != .idle && watchdogExpired T s then s.takeWatchdog else s).recordRet

/-- TICK (R108): case 4 where it applies, cases 1 to 3 elsewhere. -/
def tickWith (T : Timing) (s : State) : Outcome := whenEnabled (executes T s) (runSelected complete s) (quietTick T s)

/-- An entry of the phase program (R120): an executed tick with PHASE equal to the entry's number. -/
def phaseWith (T : Timing) (p : Phase) (completion : State → Outcome) (s : State) : Outcome :=
  whenEnabled (executes T s && s.phase == p) (runSelected completion s) s

/-- A micro-step (R140, R160): an executed tick with that kind of phase and that STEP. -/
def ustepWith (T : Timing) (k : Kind) (step : BitVec 3) (micro : State → Micro) (s : State) : Outcome :=
  whenEnabled (executes T s && kindOf s.phase == k && s.stepCnt == step) (runMicro micro complete s) s

/-- The byte `b` is being emitted at a place: PHASE is that place's, and BYTE holds `b` less the bits already shifted out
(R24, R25; log 9). -/
def emitting (place : Place) (b : Byte) (s : State) : Bool :=
  s.phase == phaseOfPlace place && s.byte == b >>> s.bitcnt.toNat

/-- A byte on the wire (R73 to R76): an executed tick of the Byte Transmitter while that byte is being emitted at its place. -/
def wirebyteWith (T : Timing) (place : Place) (b : Byte) (s : State) : Outcome :=
  whenEnabled (executes T s && emitting place b s) (runSelected complete s) s

end Sys2Proof.Machine
end

