-- ==== Sys2Proof/Machine/HostOps.lean ====
section
/-! DEFINITION. The meanings of the HOSTOP level (R100): NOP, TICK, ARM, CLEAR, SETBR, ISIDLE and the reserved codes. -/

namespace Sys2Proof.Machine

/-- NOP (R110): nothing is presented and nothing happens. -/
def execNop (s : State) : Outcome := .next s

/-- TICK (R108), always enabled. -/
def execTick (s : State) : Outcome := tickWith Config.timing s

/-- ARM, that is ARM.LOAD (R101): enabled when PRE is 0, whatever PHASE is. -/
def execArm (len pos : BitVec 8) (seg : BitVec 32) (s : State) : Outcome :=
  whenEnabled s.cmdReady (.next (s.armLoad len pos seg)) s

/-- CLEAR (R106): ARM of four zero bytes at position 0. -/
def execClear (s : State) : Outcome := whenEnabled s.cmdReady (.next (s.armLoad 4 0 0)) s

/-- SETBR (R107): BRIGHT takes the on flag and the level; no pin is written. -/
def execSetbr (on : BitVec 1) (level : BitVec 3) (s : State) : Outcome :=
  whenEnabled s.cmdReady (.next { s with bright := brightOf on level }) s

/-- ISIDLE with given timing parameters (R109): the `idle` output is returned and no register is written. -/
def isidleWith (T : Timing) (s : State) : Outcome := .next { s with idleOut := some (idleOutput T s) }

/-- ISIDLE (R109). -/
def execIsidle (s : State) : Outcome := isidleWith Config.timing s

/-- The reserved code 6 (R110): no operation. -/
def execRsvd6 (s : State) : Outcome := .next s

/-- The reserved code 7 (R110): no operation. -/
def execRsvd7 (s : State) : Outcome := .next s

end Sys2Proof.Machine
end

