-- ==== Sys2Proof/Machine/Lines.lean ====
section
/-! DEFINITION. The meanings of the USTEP level, kinds START and STOP (R160): the micro-steps of the line-condition generators,
each as the executed tick that performs it, with the completion action of the phase after S2 and T3. -/

namespace Sys2Proof.Machine

/-- S0.CLKHI (R161). -/
def execS0Clkhi (s : State) : Outcome := ustepWith Config.timing .start 0 microS0 s

/-- S1.DHI (R162). -/
def execS1Dhi (s : State) : Outcome := ustepWith Config.timing .start 1 microS1 s

/-- S2.DLO (R163). -/
def execS2Dlo (s : State) : Outcome := ustepWith Config.timing .start 2 microS2 s

/-- T0.CLKLO (R164). -/
def execT0Clklo (s : State) : Outcome := ustepWith Config.timing .stop 0 microT0 s

/-- T1.DLO (R165). -/
def execT1Dlo (s : State) : Outcome := ustepWith Config.timing .stop 1 microT1 s

/-- T2.CLKHI (R166). -/
def execT2Clkhi (s : State) : Outcome := ustepWith Config.timing .stop 2 microT2 s

/-- T3.DHI (R167). -/
def execT3Dhi (s : State) : Outcome := ustepWith Config.timing .stop 3 microT3 s

end Sys2Proof.Machine
end

