-- ==== Sys2Proof/Machine/Phases.lean ====
section
/-! DEFINITION. The meanings of the PHASE level (R77, R120): the nine entries of the phase program, and the idle sentinel. Each
entry is one executed tick in its phase: one micro-step of its sub-machine, and its completion action with the last one. -/

namespace Sys2Proof.Machine

/-- P0.WRMODE (R121). -/
def execP0Wrmode (s : State) : Outcome := phaseWith Config.timing .p0 completeP0 s

/-- P1.STOP (R122). -/
def execP1Stop (s : State) : Outcome := phaseWith Config.timing .p1 completeP1 s

/-- P2.START (R123). -/
def execP2Start (s : State) : Outcome := phaseWith Config.timing .p2 completeP2 s

/-- P3.WRADDR (R124). -/
def execP3Wraddr (s : State) : Outcome := phaseWith Config.timing .p3 completeP3 s

/-- P4.WRDATA (R125). -/
def execP4Wrdata (s : State) : Outcome := phaseWith Config.timing .p4 completeP4 s

/-- P5.STOP (R126). -/
def execP5Stop (s : State) : Outcome := phaseWith Config.timing .p5 completeP5 s

/-- P6.START (R127). -/
def execP6Start (s : State) : Outcome := phaseWith Config.timing .p6 completeP6 s

/-- P7.WRCTRL (R128). -/
def execP7Wrctrl (s : State) : Outcome := phaseWith Config.timing .p7 completeP7 s

/-- P8.STOP (R129). -/
def execP8Stop (s : State) : Outcome := phaseWith Config.timing .p8 completeP8 s

/-- IDLE (R22, R77): the sentinel's entry, which is case 1 of R108. A tick finds nothing to do and returns 1. -/
def execIdle (s : State) : Outcome := whenEnabled (s.phase == .idle) (.next s.recordRet) s

end Sys2Proof.Machine
end

