-- ==== Sys2Proof/Machine/Serializer.lean ====
section
/-! DEFINITION. The meanings of the USTEP level, kind BYTE (R140): the seven micro-steps of the Byte Transmitter, each as the
executed tick that performs it, with the completion action of the phase after B6. -/

namespace Sys2Proof.Machine

/-- B0.CLKLO (R141). -/
def execB0Clklo (s : State) : Outcome := ustepWith Config.timing .byte 0 microB0 s

/-- B1.DBIT (R142). -/
def execB1Dbit (s : State) : Outcome := ustepWith Config.timing .byte 1 microB1 s

/-- B2.CLKHI (R143). -/
def execB2Clkhi (s : State) : Outcome := ustepWith Config.timing .byte 2 microB2 s

/-- B3.ACKLO (R144). -/
def execB3Acklo (s : State) : Outcome := ustepWith Config.timing .byte 3 microB3 s

/-- B4.ACKREL (R145). -/
def execB4Ackrel (s : State) : Outcome := ustepWith Config.timing .byte 4 microB4 s

/-- B5.ACKHI (R146). -/
def execB5Ackhi (s : State) : Outcome := ustepWith Config.timing .byte 5 microB5 s

/-- B6.ACKEND (R147). -/
def execB6Ackend (s : State) : Outcome := ustepWith Config.timing .byte 6 microB6 s

end Sys2Proof.Machine
end

