-- ==== Sys2Proof/Machine/WireBytes.lean ====
section
/-! DEFINITION. The meanings of the WIREBYTE level (R73 to R76): the bytes CORE emits. Executing one is an executed tick of the
Byte Transmitter while that byte is being emitted at its place; the whole byte is 28 of them (R148). What loads each byte into
BYTE is ARM.LOAD or a completion action (R131). -/

namespace Sys2Proof.Machine

/-- CMD.MODE (R73), the only byte of frame 1. -/
def execCmdMode (s : State) : Outcome := wirebyteWith Config.timing .mode cmdModeByte s

/-- CMD.ADDR (R74), the first byte of frame 2. -/
def execCmdAddr (pos : BitVec 2) (s : State) : Outcome := wirebyteWith Config.timing .addr (cmdAddrByte pos) s

/-- CMD.CTRL (R75), the only byte of frame 3. -/
def execCmdCtrl (on : BitVec 1) (level : BitVec 3) (s : State) : Outcome :=
  wirebyteWith Config.timing .ctrl (cmdCtrlByte (brightOf on level)) s

/-- DATA (R76), bytes 2 to LEN + 1 of frame 2. -/
def execData (d : BitVec 8) (s : State) : Outcome := wirebyteWith Config.timing .data d s

end Sys2Proof.Machine
end

