-- ==== Sys2Proof/Machine/Dispatch.lean ====
section
/-! DEFINITION. The dispatch: one arm per constructor of Instr, each one direct call of its meaning. -/

namespace Sys2Proof.Machine

def exec (i : Instr) (s : State) : Host.Outcome State Fault Refusal :=
  match i with
  | .nop => Sys2Proof.Machine.execNop s
  | .tick => Sys2Proof.Machine.execTick s
  | .arm len pos seg => Sys2Proof.Machine.execArm len pos seg s
  | .clear => Sys2Proof.Machine.execClear s
  | .setbr on level => Sys2Proof.Machine.execSetbr on level s
  | .isidle => Sys2Proof.Machine.execIsidle s
  | .rsvd6 => Sys2Proof.Machine.execRsvd6 s
  | .rsvd7 => Sys2Proof.Machine.execRsvd7 s
  | .armRelc => Sys2Proof.Machine.execArmRelc s
  | .armReld => Sys2Proof.Machine.execArmReld s
  | .armStrt => Sys2Proof.Machine.execArmStrt s
  | .armDone => Sys2Proof.Machine.execArmDone s
  | .p0Wrmode => Sys2Proof.Machine.execP0Wrmode s
  | .p1Stop => Sys2Proof.Machine.execP1Stop s
  | .p2Start => Sys2Proof.Machine.execP2Start s
  | .p3Wraddr => Sys2Proof.Machine.execP3Wraddr s
  | .p4Wrdata => Sys2Proof.Machine.execP4Wrdata s
  | .p5Stop => Sys2Proof.Machine.execP5Stop s
  | .p6Start => Sys2Proof.Machine.execP6Start s
  | .p7Wrctrl => Sys2Proof.Machine.execP7Wrctrl s
  | .p8Stop => Sys2Proof.Machine.execP8Stop s
  | .idle => Sys2Proof.Machine.execIdle s
  | .b0Clklo => Sys2Proof.Machine.execB0Clklo s
  | .b1Dbit => Sys2Proof.Machine.execB1Dbit s
  | .b2Clkhi => Sys2Proof.Machine.execB2Clkhi s
  | .b3Acklo => Sys2Proof.Machine.execB3Acklo s
  | .b4Ackrel => Sys2Proof.Machine.execB4Ackrel s
  | .b5Ackhi => Sys2Proof.Machine.execB5Ackhi s
  | .b6Ackend => Sys2Proof.Machine.execB6Ackend s
  | .s0Clkhi => Sys2Proof.Machine.execS0Clkhi s
  | .s1Dhi => Sys2Proof.Machine.execS1Dhi s
  | .s2Dlo => Sys2Proof.Machine.execS2Dlo s
  | .t0Clklo => Sys2Proof.Machine.execT0Clklo s
  | .t1Dlo => Sys2Proof.Machine.execT1Dlo s
  | .t2Clkhi => Sys2Proof.Machine.execT2Clkhi s
  | .t3Dhi => Sys2Proof.Machine.execT3Dhi s
  | .cmdMode => Sys2Proof.Machine.execCmdMode s
  | .cmdAddr pos => Sys2Proof.Machine.execCmdAddr pos s
  | .cmdCtrl on level => Sys2Proof.Machine.execCmdCtrl on level s
  | .data d => Sys2Proof.Machine.execData d s

end Sys2Proof.Machine
end

