-- ==== Sys2Proof/Machine/Fetch.lean ====
section
/-! DEFINITION. What a move brings to the machine (R5, R79, R82): an operation, fetched and decoded from where it stands, or a
change of the environment. Also: how a code is put where the machine fetches it. -/

namespace Sys2Proof.Machine

/-- What a move turns out to be. -/
inductive Fetched where
  /-- an operation of `Instr`, decoded from its code -/
  | run (i : Instr)
  /-- no operation: the environment changes, or nothing does -/
  | env (t : State)
  /-- the move is no move the spec has -/
  | stop (r : Refusal)
  deriving DecidableEq, Repr

/-- The operation or the change a move stands for, in the state in which it is taken. ARMSEQ fetches the code PRE; where PRE
selects no sub-step (PRE = 0) there is no step (R82, R100). -/
def fetch (m : Move) (s : State) : Fetched :=
  match m with
  | .rst => .env s.construct
  | .time dUs dMs => .env (s.advance dUs dMs)
  | .receiver low => .env (s.setReceiver low)
  | .armseq =>
    match decodeArmseq s.pre.code with
    | .ok i => .run i
    | .error _ => .env s
  | .present w =>
    match decodeHostop w with
    | .ok i => .run i
    | .error _ => .stop .notHostop
  | .command op len pos seg on level => .run (decodeCommand op len pos seg on level)

/-- The HOSTOP word of TICK (R79: `op` = 1). -/
def tickWord : BitVec 56 := hostopWord 1 0

/-- A state in which the next TICK is an executed tick, if PHASE is not idle: it is presented next, the largest 32-bit time has
passed since the last executed tick, and none since arming (R108). -/
def State.readyToTick (s : State) : State :=
  { s with lastUs := s.nowUs + 1, startMs := s.nowMs, moves := .present tickWord :: s.moves }

/-- `s` with a code where the machine fetches its next operation (log 13). A HOSTOP word is presented. A PRE code is put into
PRE, its hold over, and ARMSEQ moves. A PHASE code is put into PHASE, a USTEP code into PHASE's kind and STEP, a wire byte into
BYTE at its place, and a TICK comes that executes. A code of R83 that no register can hold changes nothing. -/
def State.place (s : State) (c : Code) : State :=
  match c with
  | .hostop w => { s with moves := .present w :: s.moves }
  | .armseq w =>
    match preOfCode w with
    | some p => { s with pre := p, dlyUs := s.nowUs + 1, moves := .armseq :: s.moves }
    | none => s
  | .phase w =>
    match phaseOfCode w with
    | some p => { s with phase := p, stepCnt := 0, bitcnt := 0 }.readyToTick
    | none => s
  | .ustep w =>
    let k := kindOfCode (w.extractLsb' 3 2)
    let p := if kindOf s.phase = k then s.phase else firstPhaseOfKind k
    { s with phase := p, stepCnt := w.extractLsb' 0 3 }.readyToTick
  | .wirebyte place w => { s with phase := phaseOfPlace place, stepCnt := 0, bitcnt := 0, byte := w }.readyToTick

end Sys2Proof.Machine
end

