-- ==== Sys2Proof/Machine/Step.lean ====
section
/-! DEFINITION. One step of the machine: the next move is taken, and the operation it brings is executed (R58). -/

namespace Sys2Proof.Machine

/-- One step: the first move of the list is taken off and performed. With no move to come nothing is presented, which is NOP
(R79 op 0, R110). -/
def step (s : State) : Host.Outcome State Fault Refusal :=
  match s.moves with
  | [] => exec .nop (s.consume [])
  | m :: rest =>
    match fetch m (s.consume rest) with
    | .run i => exec i (s.consume rest)
    | .env t => .next t
    | .stop r => .refused r

/-- `s` with the operation of a table word where `step` fetches its next one (the host's question; log 13). -/
def State.withFetchWord (s : State) (nbits w : Nat) : State :=
  match codeOfTableWord nbits w with
  | some c => s.place c
  | none => s

end Sys2Proof.Machine
end

