-- ==== Sys2Proof/Machine/Ports.lean ====
section
/-! DEFINITION. One cycle of the system clock seen at the ports of R79, as the moves it makes in the order of R58. -/

namespace Sys2Proof.Machine

/-- The input ports of R79 in one cycle, but for `clk_sys` itself and the two counters, which are state of the platform. -/
structure Ports where
  rst : Bool
  cmdValid : Bool
  cmdOp : BitVec 3
  armSeg : BitVec 32
  armLen : BitVec 8
  armPos : BitVec 8
  brLevel : BitVec 3
  brOn : BitVec 1
  tickReq : Bool
  deriving DecidableEq, Repr

/-- The moves of one cycle: the host command, then ARMSEQ, then TICK (R58, R185). With `rst` asserted the cycle is a reset and
nothing else: DESIGN CHOICE (log 14). -/
def portMoves (p : Ports) : List Move :=
  if p.rst then [.rst]
  else
    (if p.cmdValid then [.command p.cmdOp p.armLen p.armPos p.armSeg p.brOn p.brLevel] else [])
      ++ [.armseq] ++ (if p.tickReq then [.present tickWord] else [])

end Sys2Proof.Machine
end

