-- ==== Sys2Proof/Safety.lean ====
section
/-! DEFINITION. The terms claims are made in: when a tick executes, the invariants of reachable states (R37, R46), the pins an
undisturbed transmission has (R84, R148, R168), the host's duties (R205, R208), the events of the wire units (R148, R168, R131),
and the reading of a trace (R88). Nothing in the machine uses these. -/

namespace Sys2Proof.Safety

open Sys2Proof.Machine

/-! ### When a tick executes, and what an operation does in a state -/

/-- Case 4 of R108, in the spec's own comparisons: a TICK in this state is an executed tick. -/
def Executing (s : State) : Prop :=
  s.phase ≠ .idle ∧ s.nowMs - s.startMs ≤ Config.timing.wdogMs ∧ Config.timing.minUs ≤ s.nowUs - s.lastUs

/-- The operation is TICK, or a row whose code the registers hold: PHASE, kind and STEP, or the byte being emitted at its place
(the "Enabled when" of the PHASE, USTEP and WIREBYTE rules; log 8, log 9). -/
def Selected (i : Instr) (s : State) : Prop :=
  i = .tick ∨ decodePhase s.phase.code = .ok i ∨ decodeUstep s.ustepCode = .ok i ∨
  ∃ (place : Place) (w : Byte), s.phase = phaseOfPlace place ∧ s.byte = w >>> s.bitcnt.toNat ∧ decodeWirebyte place w = .ok i

/-- The operation is an executed tick in this state: TICK in case 4 of R108, or an enabled row of one of the levels below it. -/
def ExecutesTick (i : Instr) (s : State) : Prop := Executing s ∧ Selected i s

/-- The operation is an ARM.LOAD in this state (R101, R106): ARM or CLEAR with PRE = 0. -/
def Loads (i : Instr) (s : State) : Prop := s.pre = .ready ∧ ((∃ len pos seg, i = .arm len pos seg) ∨ i = .clear)

/-- The operation is an arming sub-step and PRE and its hold enable it (R82). -/
def SubStep (i : Instr) (s : State) : Prop :=
  match i with
  | .armRelc => s.pre = .relc
  | .armReld => s.pre = .reld
  | .armStrt => s.pre = .strt ∧ Config.timing.settleUs ≤ s.nowUs - s.dlyUs
  | .armDone => s.pre = .done ∧ Config.timing.startUs ≤ s.nowUs - s.dlyUs
  | _ => False

/-- The operation writes a pin in this state (R41): an executed tick, or one of the first three sub-steps, enabled. -/
def WritesPin (i : Instr) (s : State) : Prop := ExecutesTick i s ∨ (SubStep i s ∧ i ≠ .armDone)

/-- The watchdog's condition (R180). -/
def WatchdogHolds (s : State) : Prop := s.phase ≠ .idle ∧ Config.timing.wdogMs < s.nowMs - s.startMs

/-- The state after an executed tick, but for what its micro-step and its completion action write: one pin event, the time of
the tick, the `ret`. -/
def ticked (s : State) (p : Pin) (v : Level) (ret : Bool) : State :=
  { s with
    clk := if p = .clk then v else s.clk
    dio := if p = .dio then v else s.dio
    wire := s.wire ++ [⟨p, v⟩]
    lastUs := s.nowUs
    tickRet := some ret }

/-- The last micro-step of each kind (R38): B6, S2, T3. -/
def lastStep : Kind → BitVec 3
  | .byte => 6
  | .start => 2
  | .stop => 3
  | .none => 0

/-- The "on completion" column of the table of R77. -/
def afterCompletion (s : State) : State :=
  match s.phase with
  | .p0 => { s with byte := 0xC0 + s.pos.setWidth 8, phase := .p1 }
  | .p1 => { s with phase := .p2 }
  | .p2 => { s with phase := .p3 }
  | .p3 => { s with idx := 0, byte := (memRead s.seg 0).getD 0, phase := .p4 }
  | .p4 =>
    if s.idx.toNat + 1 < s.len.toNat then
      { s with idx := s.idx + 1, byte := (memRead s.seg (s.idx.toNat + 1)).getD 0 }
    else { s with idx := s.idx + 1, phase := .p5 }
  | .p5 => { s with byte := 0x80 + s.bright.setWidth 8, phase := .p6 }
  | .p6 => { s with phase := .p7 }
  | .p7 => { s with phase := .p8 }
  | .p8 => { s with phase := .idle }
  | .idle => s

/-! ### Invariants of reachable states -/

/-- The reachable (kind, STEP, BITCNT) triples of R46. -/
def LegalTriple (k : Kind) (step : BitVec 3) (bitcnt : BitVec 4) : Prop :=
  match k with
  | .byte => (step.toNat ≤ 2 ∧ bitcnt.toNat ≤ 7) ∨ (3 ≤ step.toNat ∧ step.toNat ≤ 6 ∧ bitcnt.toNat = 8)
  | .start => step.toNat ≤ 2 ∧ bitcnt.toNat = 0
  | .stop => step.toNat ≤ 3 ∧ bitcnt.toNat = 0
  | .none => False

/-- R46, R37 (a) and (c): STEP and BITCNT fit the active sub-machine; while idle they are what some sub-machine left. -/
def LegalStep (s : State) : Prop :=
  if s.phase = .idle then ∃ k, LegalTriple k s.stepCnt s.bitcnt else LegalTriple (kindOf s.phase) s.stepCnt s.bitcnt

/-- R26, R30, R37 (b) and (d): LEN is 1 to 4 while a transmission is pending; IDX is 0 before phase 4, below LEN in phase 4, LEN
after it. -/
def LegalIndex (s : State) : Prop :=
  s.len.toNat ≤ 4 ∧ s.idx.toNat ≤ s.len.toNat ∧
  match s.phase with
  | .p0 | .p1 | .p2 | .p3 => 1 ≤ s.len.toNat ∧ s.idx = 0
  | .p4 => s.idx.toNat < s.len.toNat
  | .p5 | .p6 | .p7 | .p8 => 1 ≤ s.len.toNat ∧ s.idx = s.len
  | .idle => True

/-- R80, R125 (e): the bytes of SEG at and above LEN are zero. -/
def ZeroFilled (s : State) : Prop := ∀ i, i < 4 → s.len.toNat ≤ i → memRead s.seg i = some 0

/-- R24, R143: BYTE holds no bit above those still to be sent. -/
def ByteShifted (s : State) : Prop := s.byte.toNat < 2 ^ (8 - s.bitcnt.toNat)

/-- What every reachable state satisfies. -/
structure Invariants (s : State) : Prop where
  legalStep : LegalStep s
  legalIndex : LegalIndex s
  segWf : Memory.wf s.seg
  zeroFilled : ZeroFilled s
  byteShifted : ByteShifted s

/-- The schedule presents HOSTOP words only (R79): bits 52:48 of every presented word are zero. -/
def HostopSchedule (s : State) : Prop := ∀ w, Move.present w ∈ s.moves → (Code.hostop w).wellFormed = true

/-- The value of a pad after a trace, starting from a given value: its last event, if it has one (R88). -/
def padAfter (p : Pin) : Level → List PinEvent → Level
  | v, [] => v
  | v, e :: es => padAfter p (if e.pin = p then e.level else v) es

/-- R41: the pads are what the trace since reset says. -/
def PadsFollowTrace (s : State) : Prop :=
  s.clk = padAfter .clk .released s.wire ∧ s.dio = padAfter .dio .released s.wire

/-! ### Undisturbed transmissions -/

/-- The pins an undisturbed transmission has before each micro-step (R84, R148, R168, R121 to R129). -/
def ProgramPins (s : State) : Prop :=
  match kindOf s.phase, s.stepCnt.toNat with
  | .byte, 0 =>
    if s.bitcnt = 0 then
      (s.clk = .released ∧ s.dio = .low) ∨ (s.phase = .p4 ∧ s.clk = .low ∧ s.dio = .released)
    else s.clk = .released
  | .byte, 1 => s.clk = .low
  | .byte, 2 => s.clk = .low
  | .byte, 3 => s.clk = .released
  | .byte, 4 => s.clk = .low
  | .byte, 5 => s.clk = .low ∧ s.dio = .released
  | .byte, _ => s.clk = .released ∧ s.dio = .released
  | .start, _ => s.clk = .released ∧ s.dio = .released
  | .stop, 0 => s.clk = .low ∧ s.dio = .released
  | .stop, 1 => s.clk = .low ∧ s.dio = .released
  | .stop, 2 => s.clk = .low ∧ s.dio = .low
  | .stop, _ => s.clk = .released ∧ s.dio = .low
  | .none, _ => True

/-- Armed with nothing sent yet, or forced idle by the watchdog. -/
def ArmedOrIdle (s : State) : Prop := s.phase = .idle ∨ (s.phase = .p0 ∧ s.stepCnt = 0 ∧ s.bitcnt = 0)

/-- The pins of an undisturbed arming (R102 to R104): CLK is released once ARM.RELC is done, DIO is released in the bus-settle
hold and low in the start-recognition hold; meanwhile PHASE is 0 with nothing sent, or the watchdog has forced it idle. With no
arming in progress the pins are the program's. -/
def Undisturbed (s : State) : Prop :=
  match s.pre with
  | .ready => ProgramPins s
  | .relc => ArmedOrIdle s
  | .reld => s.clk = .released ∧ ArmedOrIdle s
  | .strt => s.clk = .released ∧ s.dio = .released ∧ ArmedOrIdle s
  | .done => s.clk = .released ∧ s.dio = .low ∧ ArmedOrIdle s

/-- The host's duty of R208 for the next step: no executed tick while an arming is in progress. -/
def NoTickWhileArming (s : State) : Prop :=
  ∀ w rest, s.moves = .present w :: rest → decodeHostop w = .ok .tick → s.pre ≠ .ready → ¬ Executing s

/-- The event `e` is a start condition on pads that were `c` and `d` (R72, R88). -/
def IsStart (c d : Level) (e : PinEvent) : Prop := e = ⟨.dio, .low⟩ ∧ c = .released ∧ d = .released

/-- The event `e` is a stop condition on pads that were `c` and `d` (R72, R88). -/
def IsStop (c d : Level) (e : PinEvent) : Prop := e = ⟨.dio, .released⟩ ∧ c = .released ∧ d = .low

/-! ### The events of the wire units -/

/-- The bit cell of a bit (R71): clock low, data, clock released. -/
def bitCell (b : Bool) : List PinEvent := [⟨.clk, .low⟩, ⟨.dio, if b then .released else .low⟩, ⟨.clk, .released⟩]

/-- The 28 events of a byte (R148): eight bit cells, least significant bit first, and the acknowledgment slot. -/
def byteEvents (b : Byte) : List PinEvent :=
  (List.range 8).flatMap (fun k => bitCell (b.getLsbD k)) ++
    [⟨.clk, .low⟩, ⟨.dio, .released⟩, ⟨.clk, .released⟩, ⟨.clk, .low⟩]

/-- The three events of the Start generator (R168), which are the arming's too (R112). -/
def startEvents : List PinEvent := [⟨.clk, .released⟩, ⟨.dio, .released⟩, ⟨.dio, .low⟩]

/-- The four events of the Stop generator (R168). -/
def stopEvents : List PinEvent := [⟨.clk, .low⟩, ⟨.dio, .low⟩, ⟨.clk, .released⟩, ⟨.dio, .released⟩]

/-- The events the executed ticks of a transmission append (R72, R131): frame 1 less its start, then frames 2 and 3. -/
def transmissionEvents (pos : BitVec 2) (segs : List Byte) (bright : BitVec 4) : List PinEvent :=
  byteEvents 0x40 ++ stopEvents ++
  (startEvents ++ byteEvents (0xC0 + pos.setWidth 8) ++ segs.flatMap byteEvents ++ stopEvents) ++
  (startEvents ++ byteEvents (0x80 + bright.setWidth 8) ++ stopEvents)

/-- The LEN bytes of the buffer that phase 4 sends (R53). -/
def segBytes (s : State) : List Byte := (List.range s.len.toNat).map (fun i => (memRead s.seg i).getD 0)

/-! ### Reading a trace (R88) -/

/-- The symbols of a trace. -/
inductive Symbol where
  | start
  | stop
  /-- a rising clock edge, which samples the data line -/
  | edge (d : Level)
  deriving DecidableEq, Repr

/-- The symbol an event makes on pads that were `c` and `d`, if it makes one (R88). -/
def symbolOf (c d : Level) : PinEvent → List Symbol
  | ⟨.dio, .low⟩ => if c = .released ∧ d = .released then [.start] else []
  | ⟨.dio, .released⟩ => if c = .released ∧ d = .low then [.stop] else []
  | ⟨.clk, .released⟩ => if c = .low then [.edge d] else []
  | ⟨.clk, .low⟩ => []

/-- A trace read into symbols, from given pad values (R88). -/
def readWire : Level → Level → List PinEvent → List Symbol
  | _, _, [] => []
  | c, d, e :: es =>
    symbolOf c d e ++
      readWire (if e.pin = .clk then e.level else c) (if e.pin = .dio then e.level else d) es

/-- The nine edges of a byte: its bits, least significant first, and the acknowledgment slot where the data pad is released
(R88). -/
def byteSymbols (b : Byte) : List Symbol :=
  (List.range 8).map (fun k => .edge (if b.getLsbD k then .released else .low)) ++ [.edge .released]

/-- A frame (R72, R88): a start, its bytes, the stop's own clock edge, a stop. -/
def frameSymbols (bytes : List Byte) : List Symbol := [.start] ++ bytes.flatMap byteSymbols ++ [.edge .low, .stop]

/-! ### Schedules -/

/-- `RUN` of R87 for `n` ticks: before each, exactly the minimum interval passes. The two counters are independent (R190), and
`now_ms` stands still. -/
def runMoves (n : Nat) : List Move :=
  (List.replicate n [Move.time Config.timing.minUs.toNat 0, Move.present tickWord]).flatten

/-- `ARMFULL` of R87 and the first tick: ARM, the four sub-steps with `d1` and `d2` microseconds for the two holds, and a tick
`d3` microseconds later. -/
def armFullMoves (len pos : BitVec 8) (seg : BitVec 32) (d1 d2 d3 : Nat) : List Move :=
  [.present (hostopWord 2 (len ++ pos ++ seg)), .armseq, .armseq, .time d1 0, .armseq, .time d2 0, .armseq,
    .time d3 0, .present tickWord]

/-- `n` steps of the machine. -/
def run (n : Nat) (s : State) : Outcome := Host.Core.run Sys2Proof.core n s

/-- Two outcomes are of one kind, and their states are related; a fault and a refusal agree if they are the same. -/
def outcomesAgree (R : State → State → Prop) : Outcome → Outcome → Prop
  | .next t, .next u => R t u
  | .fault f, .fault g => f = g
  | .refused r, .refused q => r = q
  | _, _ => False

end Sys2Proof.Safety
end

