-- ==== Sys2Proof/Certificates/Slice0/Obligations.lean ====
section
/-! DEFINITION. The statements for the provers, each from numbered rules of the spec. -/

open Sys2Proof Sys2Proof.Machine Sys2Proof.Safety

/-! ### Codes -/

/-- 30_encoding: the code the tables give an operation decodes to that operation, whatever its operands. -/
def Obligations.EncodedOperationDecodesToItself : Prop := ∀ i : Instr, decode (encode i) = .ok i

/-- R73 to R78, R82, R83: at the levels PHASE, USTEP, ARMSEQ and WIREBYTE the codes with no defined meaning are exactly the ones
the decoder refuses. At the HOSTOP level it refuses exactly the words whose bits 52:48 are not zero, which is the model's choice
(log 12; DESIGN CHOICE), and accepts every `op`, the reserved 6 and 7 among them. -/
def Obligations.DecoderAcceptsExactlyTheSpecsCodes : Prop :=
  ∀ c : Code, c.wellFormed = true ↔ ∃ i, decode c = .ok i

/-- Words of 95_test_vectors and of the tables of 30_encoding, two or more a level, with the operation each stands for. -/
def Obligations.WordsOfTheTablesDecode : Prop :=
  decode (.hostop 0x40040344332211) = .ok (.arm 4 3 0x44332211) ∧
  decode (.hostop 0x400005DDCCBBAA) = .ok (.arm 0 5 0xDDCCBBAA) ∧
  decode (.hostop 0x8000000000000A) = .ok (.setbr 1 2) ∧
  decode (.hostop 0x20000000000000) = .ok .tick ∧
  decode (.hostop 0xA0000000000000) = .ok .isidle ∧
  decode (.armseq 0b001) = .ok .armRelc ∧
  decode (.armseq 0b011) = .ok .armStrt ∧
  decode (.phase 0b0100) = .ok .p4Wrdata ∧
  decode (.phase 0b1111) = .ok .idle ∧
  decode (.ustep 0b00010) = .ok .b2Clkhi ∧
  decode (.ustep 0b01010) = .ok .s2Dlo ∧
  decode (.ustep 0b10011) = .ok .t3Dhi ∧
  decode (.wirebyte .addr 0xC2) = .ok (.cmdAddr 2) ∧
  decode (.wirebyte .ctrl 0x8A) = .ok (.cmdCtrl 1 2) ∧
  decode (.wirebyte .data 0x40) = .ok (.data 0x40)

/-! ### The step -/

/-- R58, R79, R82: a step takes the first move. A presented HOSTOP word, a PRE code when ARMSEQ moves, or a command code runs the
operation it decodes to, in the state with that move taken and the last outputs ended; with no move to come it is NOP; where PRE
selects no sub-step nothing but that happens. The list of moves is the model's own (log 4; DESIGN CHOICE). -/
def Obligations.StepRunsTheDecodedOperation : Prop :=
  (∀ s w rest i, s.moves = .present w :: rest → decodeHostop w = .ok i → step s = exec i (s.consume rest)) ∧
  (∀ s rest i, s.moves = .armseq :: rest → decodeArmseq s.pre.code = .ok i → step s = exec i (s.consume rest)) ∧
  (∀ s rest, s.moves = .armseq :: rest → s.pre = .ready → step s = .next (s.consume rest)) ∧
  (∀ s rest op len pos seg on level, s.moves = .command op len pos seg on level :: rest →
    step s = exec (decodeCommand op len pos seg on level) (s.consume rest)) ∧
  (∀ s, s.moves = [] → step s = exec .nop (s.consume []))

/-- The host's question: a table word put where the machine fetches is the operation the very next step runs. The level a
byte of unstated level is read at is the model's choice (log 13). -/
def Obligations.PlacedTableWordRunsNext : Prop :=
  ∀ (s : State) nbits w i, decodeTableWord nbits w = some i →
    step (s.withFetchWord nbits w) = exec i ((s.withFetchWord nbits w).consume s.moves)

/-- R189, R190, R192, R12: TIME advances the two counters modulo 2^32, each by its own amount, and the receiver pulls or lets go;
nothing else changes. -/
def Obligations.TimeAndReceiverMovesChangeInputsOnly : Prop :=
  (∀ s rest dUs dMs, s.moves = .time dUs dMs :: rest →
    ∃ t, step s = .next t ∧ t.nowUs.toNat = (s.nowUs.toNat + dUs) % 2 ^ 32 ∧
      t.nowMs.toNat = (s.nowMs.toNat + dMs) % 2 ^ 32 ∧
      t = { s.consume rest with nowUs := t.nowUs, nowMs := t.nowMs }) ∧
  (∀ s rest low, s.moves = .receiver low :: rest → step s = .next { s.consume rest with rxLow := low })

/-- R58, R185: a cycle that brings an ARM and a tick request from PRE = 0 performs the ARM, then ARM.RELC, then the TICK, which
sees the armed state: too early if the minimum interval is not zero, an executed B0 if it is. That ARMSEQ takes its turn in the
very cycle whose ARM enables it is the model's choice (`portMoves`, log 14; DESIGN CHOICE): R58 gives only the order. -/
def Obligations.OneCycleServesCommandThenArmseqThenTick : Prop :=
  ∀ s p rest, p.rst = false → p.cmdValid = true → p.cmdOp = 2 → p.tickReq = true → s.pre = .ready →
    s.moves = portMoves p ++ rest →
    ∃ t, run 3 s = .next t ∧ t.phase = .p0 ∧ t.pre = .reld ∧ t.moves = rest ∧ t.tickRet = some false ∧
      t.stepCnt = (if Config.timing.minUs = 0 then 1 else 0) ∧
      t.wire = s.wire ++ ⟨.clk, .released⟩ :: (if Config.timing.minUs = 0 then [⟨.clk, .low⟩] else [])

/-! ### Reset -/

/-- R45: the outputs after reset, and the TICK after it. -/
def Obligations.OutputsAfterReset : Prop :=
  State.reset.clkDriveLow = false ∧ State.reset.dioDriveLow = false ∧ idleOutput Config.timing State.reset = true ∧
  State.reset.cmdReady = true ∧ exec .tick State.reset = .next { State.reset with tickRet := some true }

/-- R44, R200, R201, R202: `rst` in any state gives every register the value the table of R44 states and an empty trace, and
leaves the counters running. (What R44 leaves unspecified is not claimed.) -/
def Obligations.RstGivesTheSpecifiedResetValues : Prop :=
  ∀ s rest, s.moves = .rst :: rest →
    ∃ t, step s = .next t ∧ t.phase = .idle ∧ t.stepCnt = 0 ∧ t.bitcnt = 0 ∧ t.pre = .ready ∧ t.clk = .released ∧
      t.dio = .released ∧ t.bright = 0xF ∧ t.wire = [] ∧ t.nowUs = s.nowUs ∧ t.nowMs = s.nowMs ∧
      t.moves = rest ∧ idleOutput Config.timing t = true ∧ t.cmdReady = true

/-! ### Host operations -/

/-- R101, R80: ARM with PRE = 0, in any phase, loads the clamped length, the masked position and the zero-filled bytes, starts
the sequencer and the arming, drops `idle`, and touches no pin; with PRE not 0 nothing happens. -/
def Obligations.ArmLoadsAndStartsTheArming : Prop :=
  ∀ s len pos seg,
    (s.pre ≠ .ready → exec (.arm len pos seg) s = .next s) ∧
    (s.pre = .ready → ∃ t, exec (.arm len pos seg) s = .next t ∧
      t = { s with seg := t.seg, len := t.len, pos := t.pos, phase := .p0, stepCnt := 0, bitcnt := 0, byte := 0x40, idx := 0,
                   lastUs := s.nowUs, startMs := s.nowMs, pre := .relc } ∧
      t.len.toNat = (if 4 < len.toNat then 4 else if len.toNat = 0 then 1 else len.toNat) ∧
      t.pos.toNat = pos.toNat % 4 ∧
      (s.seg.Pairwise (fun x y => x.1 < y.1) →
        ∀ i, i < 4 → memRead t.seg i = some (if i < t.len.toNat then seg.extractLsb' (8 * i) 8 else 0)) ∧
      (Memory.wf s.seg → Memory.wf t.seg) ∧
      idleOutput Config.timing t = false)

/-- R106: CLEAR is ARM of length 4, position 0 and four zero bytes. -/
def Obligations.ClearArmsFourBlankBytes : Prop :=
  ∀ s, exec .clear s = exec (.arm 4 0 0) s ∧
    (s.pre = .ready → ∃ t, exec .clear s = .next t ∧ t.len = 4 ∧ t.pos = 0 ∧ t.phase = .p0 ∧ t.pre = .relc ∧
      (s.seg.Pairwise (fun x y => x.1 < y.1) → ∀ i, i < 4 → memRead t.seg i = some 0))

/-- R107, R81: SETBR with PRE = 0 writes BRIGHT, ON in bit 3 and LEVEL below it, and nothing else; with PRE not 0 nothing
happens. -/
def Obligations.SetbrWritesBrightOnly : Prop :=
  ∀ s on level,
    (s.pre = .ready → ∃ t, exec (.setbr on level) s = .next t ∧ t = { s with bright := t.bright } ∧
      t.bright.extractLsb' 3 1 = on ∧ t.bright.extractLsb' 0 3 = level) ∧
    (s.pre ≠ .ready → exec (.setbr on level) s = .next s)

/-- R40: the `idle` output is PHASE = 15 or the watchdog comparator, and reading it writes no register; the
result is kept for one step (log 6; DESIGN CHOICE). -/
def Obligations.IsidleReturnsTheIdleOutput : Prop :=
  ∀ s, exec .isidle s =
    .next { s with idleOut := some (decide (s.phase = .idle ∨ Config.timing.wdogMs < s.nowMs - s.startMs)) }

/-- R110: NOP and the reserved codes do nothing, nor do 0, 1, 5, 6 and 7 on the command port. -/
def Obligations.NopAndReservedCodesDoNothing : Prop :=
  (∀ s, exec .nop s = .next s ∧ exec .rsvd6 s = .next s ∧ exec .rsvd7 s = .next s) ∧
  (∀ s rest op len pos seg on level, s.moves = .command op len pos seg on level :: rest →
    op.toNat ≠ 2 → op.toNat ≠ 3 → op.toNat ≠ 4 → step s = .next (s.consume rest))

/-- R109 (b), (c), R40: with no tick after ARM, `idle` reads 0 until more than the deadline has passed, and 1 from then on (below a
whole wrap of the counter), and PHASE is still 0. -/
def Obligations.IdleRisesWhenTheDeadlineHasPassed : Prop :=
  ∀ s len pos seg dUs dMs, s.pre = .ready → dMs < 2 ^ 32 →
    ∃ t u, exec (.arm len pos seg) s = .next t ∧ exec .isidle (t.advance dUs dMs) = .next u ∧
      u.idleOut = some (decide (Config.timing.wdogMs.toNat < dMs)) ∧ u.phase = .p0

/-! ### The arming sub-steps -/

/-- R82, R102 to R105: each sub-step has its code, and where PRE selects it and its hold has elapsed, does its one pin write
(ARM.DONE none), its hold's start and the next PRE; otherwise nothing happens. -/
def Obligations.ArmingSubStepsActAsTabled : Prop :=
  encode .armRelc = .armseq 1 ∧ encode .armReld = .armseq 2 ∧ encode .armStrt = .armseq 3 ∧ encode .armDone = .armseq 4 ∧
  ∀ s,
    (exec .armRelc s =
      if s.pre = .relc then
        .next { s with clk := .released, wire := s.wire ++ [⟨.clk, .released⟩], pre := .reld }
      else .next s) ∧
    (exec .armReld s =
      if s.pre = .reld then
        .next { s with dio := .released, wire := s.wire ++ [⟨.dio, .released⟩], dlyUs := s.nowUs, pre := .strt }
      else .next s) ∧
    (exec .armStrt s =
      if s.pre = .strt ∧ Config.timing.settleUs ≤ s.nowUs - s.dlyUs then
        .next { s with dio := .low, wire := s.wire ++ [⟨.dio, .low⟩], dlyUs := s.nowUs, pre := .done }
      else .next s) ∧
    (exec .armDone s =
      if s.pre = .done ∧ Config.timing.startUs ≤ s.nowUs - s.dlyUs then .next { s with pre := .ready } else .next s)

/-- R112: the whole arming with no tick in it, from any pins, with any times at or above the two holds, ends with CLK released,
DIO low and the host port ready, and appends its three events; on the wire they read as the four rows of the table. -/
def Obligations.ArmingEndsInAStartFromAnyPins : Prop :=
  ∀ s d1 d2 rest, s.pre = .relc →
    Config.timing.settleUs ≤ BitVec.ofNat 32 d1 → Config.timing.startUs ≤ BitVec.ofNat 32 d2 →
    s.moves = [.armseq, .armseq, .time d1 0, .armseq, .time d2 0, .armseq] ++ rest →
    ∃ t, run 6 s = .next t ∧ t.clk = .released ∧ t.dio = .low ∧ t.pre = .ready ∧ t.moves = rest ∧
      t.wire = s.wire ++ startEvents ∧
      readWire s.clk s.dio startEvents =
        (match s.clk, s.dio with
          | .released, .released => [.start]
          | .low, .low => [.edge .low, .stop, .start]
          | .low, .released => [.edge .released, .start]
          | .released, .low => [.stop, .start])

/-! ### TICK -/

/-- R108: the four cases of TICK in their order, for any timing parameters, the machine's own among them: idle; watchdog; too
early; and one micro-step, which is the one the pair (kind(PHASE), STEP) selects. -/
def Obligations.TickTakesOneOfFourCases : Prop :=
  (∀ s, exec .tick s = tickWith Config.timing s) ∧
  (∀ T s, s.phase = .idle → tickWith T s = .next { s with tickRet := some true }) ∧
  (∀ T s, s.phase ≠ .idle → T.wdogMs < s.nowMs - s.startMs →
    tickWith T s = .next { s with phase := .idle, tickRet := some true }) ∧
  (∀ T s, s.phase ≠ .idle → s.nowMs - s.startMs ≤ T.wdogMs → s.nowUs - s.lastUs < T.minUs →
    tickWith T s = .next { s with tickRet := some false }) ∧
  (∀ T s micro, s.phase ≠ .idle → s.nowMs - s.startMs ≤ T.wdogMs → T.minUs ≤ s.nowUs - s.lastUs →
    selectMicro (kindOf s.phase) s.stepCnt = some micro → s.len.toNat ≤ 4 →
    ∃ t, tickWith T s = .next t ∧ t.lastUs = s.nowUs ∧ t.tickRet = some (decide (t.phase = .idle)) ∧
      { t with tickRet := s.tickRet } =
        (if (micro { s with lastUs := s.nowUs }).2 then afterCompletion (micro { s with lastUs := s.nowUs }).1
         else (micro { s with lastUs := s.nowUs }).1))

/-- R111, R108 (e): with STEP legal for the active sub-machine, an executed TICK completes: it records its time, performs one
micro-step, which is one pin event and STEP, BYTE, BITCNT, and at most one completion action, which is PHASE, BYTE, IDX; `ret` is
1 exactly when PHASE is 15 after it. -/
def Obligations.ExecutedTickPerformsOneMicroStep : Prop :=
  ∀ s, Executing s → LegalTriple (kindOf s.phase) s.stepCnt s.bitcnt → s.len.toNat ≤ 4 →
    ∃ t p v, exec .tick s = .next t ∧
      t = { ticked s p v (decide (t.phase = .idle)) with
        stepCnt := t.stepCnt, byte := t.byte, bitcnt := t.bitcnt, phase := t.phase, idx := t.idx } ∧
      (s.stepCnt ≠ lastStep (kindOf s.phase) → t.phase = s.phase ∧ t.idx = s.idx) ∧
      (s.stepCnt = lastStep (kindOf s.phase) → t.stepCnt = 0 ∧ t.bitcnt = 0 ∧
        t.phase = (afterCompletion s).phase ∧ t.idx = (afterCompletion s).idx ∧
        (t.byte = (afterCompletion s).byte))

/-- R108 case 4, R111: an executed TICK is the micro-step that `(kind(PHASE), STEP)` encodes, is the entry of the phase program
that PHASE encodes, and is each wire byte being emitted at its place, at every step of the byte: BYTE holds it less the bits
sent. That the rows of these levels are views of the executed tick is the model's reading (log 8, log 9; DEDUCED). -/
def Obligations.ExecutedTickIsTheOperationEachLevelSelects : Prop :=
  ∀ s, Executing s →
    (∀ i, decodeUstep s.ustepCode = .ok i → exec .tick s = exec i s) ∧
    (∀ i, decodePhase s.phase.code = .ok i → exec .tick s = exec i s) ∧
    (∀ (place : Place) (w : Byte) (i : Instr), s.phase = phaseOfPlace place → s.byte = w >>> s.bitcnt.toNat →
      decodeWirebyte place w = .ok i → exec .tick s = exec i s)

/-- R186: the watchdog's entry is the one assignment PHASE <- 15, and the TICK returns 1; no pin is written, and STEP, BITCNT,
BYTE, IDX, LAST_US, START_MS stay; for any timing parameters. -/
def Obligations.WatchdogEntryWritesPhaseOnly : Prop :=
  ∀ T s, s.phase ≠ .idle → T.wdogMs < s.nowMs - s.startMs →
    ∃ t, tickWith T s = .next t ∧ t.phase = .idle ∧ t.tickRet = some true ∧
      { t with phase := s.phase, tickRet := s.tickRet } = s

/-- R13: a PHASE, USTEP or WIREBYTE operation whose "Enabled when" is false has no step. When such a row is enabled is the model's
reading (log 8, log 9; DEDUCED). -/
def Obligations.NothingHappensWhereNotEnabled : Prop :=
  (∀ s w i, decodePhase w = .ok i → i ≠ .idle → ¬ (Executing s ∧ s.phase.code = w) → exec i s = .next s) ∧
  (∀ s w i, decodeUstep w = .ok i → ¬ (Executing s ∧ s.ustepCode = w) → exec i s = .next s) ∧
  (∀ s place w i, decodeWirebyte place w = .ok i →
    ¬ (Executing s ∧ s.phase = phaseOfPlace place ∧ s.byte = w >>> s.bitcnt.toNat) → exec i s = .next s) ∧
  (∀ s, s.phase ≠ .idle → exec .idle s = .next s)

/-! ### Micro-steps -/

/-- R141, R142, R143, R108: the bit cell, with its codes. `ticked` is one pin event, the time of the tick and `ret`. That a row is the
whole executed tick, LAST_US and `ret` among it, is the model's reading (log 8; DEDUCED). -/
def Obligations.BitCellMicroSteps : Prop :=
  encode .b0Clklo = .ustep 0b00000 ∧ encode .b1Dbit = .ustep 0b00001 ∧ encode .b2Clkhi = .ustep 0b00010 ∧
  ∀ s, Executing s → kindOf s.phase = .byte →
    (s.stepCnt = 0 → exec .b0Clklo s = .next { ticked s .clk .low false with stepCnt := 1 }) ∧
    (s.stepCnt = 1 → exec .b1Dbit s =
      .next { ticked s .dio (if s.byte.getLsbD 0 then .released else .low) false with stepCnt := 2 }) ∧
    (s.stepCnt = 2 → exec .b2Clkhi s =
      .next { ticked s .clk .released false with
        byte := s.byte >>> 1, bitcnt := s.bitcnt + 1, stepCnt := if s.bitcnt.toNat + 1 < 8 then 0 else 3 })

/-- R144, R145, R146, R108: the acknowledgment slot up to its last step, with its codes; the data line is released and never read.
That a row is the whole executed tick, LAST_US and `ret` among it, is the model's reading (log 8; DEDUCED). -/
def Obligations.AcknowledgmentSlotMicroSteps : Prop :=
  encode .b3Acklo = .ustep 0b00011 ∧ encode .b4Ackrel = .ustep 0b00100 ∧ encode .b5Ackhi = .ustep 0b00101 ∧
  ∀ s, Executing s → kindOf s.phase = .byte →
    (s.stepCnt = 3 → exec .b3Acklo s = .next { ticked s .clk .low false with stepCnt := 4 }) ∧
    (s.stepCnt = 4 → exec .b4Ackrel s = .next { ticked s .dio .released false with stepCnt := 5 }) ∧
    (s.stepCnt = 5 → exec .b5Ackhi s = .next { ticked s .clk .released false with stepCnt := 6 })

/-- R161, R162, R164, R165, R166, R108: the steps of the Start and Stop generators before their last, with their codes. That a row is
the whole executed tick, LAST_US and `ret` among it, is the model's reading (log 8; DEDUCED). -/
def Obligations.LineConditionMicroSteps : Prop :=
  encode .s0Clkhi = .ustep 0b01000 ∧ encode .s1Dhi = .ustep 0b01001 ∧ encode .t0Clklo = .ustep 0b10000 ∧
  encode .t1Dlo = .ustep 0b10001 ∧ encode .t2Clkhi = .ustep 0b10010 ∧
  ∀ s, Executing s →
    (kindOf s.phase = .start →
      (s.stepCnt = 0 → exec .s0Clkhi s = .next { ticked s .clk .released false with stepCnt := 1 }) ∧
      (s.stepCnt = 1 → exec .s1Dhi s = .next { ticked s .dio .released false with stepCnt := 2 })) ∧
    (kindOf s.phase = .stop →
      (s.stepCnt = 0 → exec .t0Clklo s = .next { ticked s .clk .low false with stepCnt := 1 }) ∧
      (s.stepCnt = 1 → exec .t1Dlo s = .next { ticked s .dio .low false with stepCnt := 2 }) ∧
      (s.stepCnt = 2 → exec .t2Clkhi s = .next { ticked s .clk .released false with stepCnt := 3 }))

/-- R147, R163, R167, R108, R111: the last step of each sub-machine: its code, its pin write, STEP 0 (and BITCNT 0 after a byte), and
in the same step the completion action of the current phase; `ret` is 1 only at the end of phase 8. That a row is the whole
executed tick, its completion action, LAST_US and `ret` among it, is the model's reading (log 8; DEDUCED). -/
def Obligations.LastMicroStepsCompleteThePhase : Prop :=
  encode .b6Ackend = .ustep 0b00110 ∧ encode .s2Dlo = .ustep 0b01010 ∧ encode .t3Dhi = .ustep 0b10011 ∧
  ∀ s, Executing s → s.len.toNat ≤ 4 →
    (kindOf s.phase = .byte → s.stepCnt = 6 → exec .b6Ackend s =
      .next (afterCompletion { ticked s .clk .low false with bitcnt := 0, stepCnt := 0 })) ∧
    (kindOf s.phase = .start → s.stepCnt = 2 → exec .s2Dlo s =
      .next (afterCompletion { ticked s .dio .low false with stepCnt := 0 })) ∧
    (kindOf s.phase = .stop → s.stepCnt = 3 → exec .t3Dhi s =
      .next (afterCompletion { ticked s .dio .released (decide (s.phase = .p8)) with stepCnt := 0 }))

/-! ### Phases -/

/-- R121, R124, R125, R128, R108: the byte phases at their B6. Phase 0 loads the address byte, phase 3 SEG[0], phase 4 the next byte
while there is one and goes on to 5 after the last, phase 7 goes to 8. That executing a PHASE row is the whole executed tick, its
micro-step, LAST_US and `ret` among it, is the model's reading (log 8; DEDUCED). -/
def Obligations.BytePhasesComplete : Prop :=
  ∀ s, Executing s → s.stepCnt = 6 →
    (s.phase = .p0 → exec .p0Wrmode s =
      .next { ticked s .clk .low false with bitcnt := 0, stepCnt := 0, byte := 0xC0 + s.pos.setWidth 8, phase := .p1 }) ∧
    (∀ b, s.phase = .p3 → memRead s.seg 0 = some b → exec .p3Wraddr s =
      .next { ticked s .clk .low false with bitcnt := 0, stepCnt := 0, idx := 0, byte := b, phase := .p4 }) ∧
    (∀ b, s.phase = .p4 → s.idx.toNat + 1 < s.len.toNat → memRead s.seg (s.idx.toNat + 1) = some b → exec .p4Wrdata s =
      .next { ticked s .clk .low false with bitcnt := 0, stepCnt := 0, idx := s.idx + 1, byte := b }) ∧
    (s.phase = .p4 → ¬ s.idx.toNat + 1 < s.len.toNat → exec .p4Wrdata s =
      .next { ticked s .clk .low false with bitcnt := 0, stepCnt := 0, idx := s.idx + 1, phase := .p5 }) ∧
    (s.phase = .p7 → exec .p7Wrctrl s =
      .next { ticked s .clk .low false with bitcnt := 0, stepCnt := 0, phase := .p8 })

/-- R122, R123, R126, R127, R129, R108: the line phases at their last step. Phase 5 loads the control byte from all four bits of
BRIGHT; phase 8 ends the transmission and the tick returns 1. That executing a PHASE row is the whole executed tick, its
micro-step, LAST_US and `ret` among it, is the model's reading (log 8; DEDUCED). -/
def Obligations.LinePhasesComplete : Prop :=
  ∀ s, Executing s →
    (s.phase = .p1 → s.stepCnt = 3 → exec .p1Stop s =
      .next { ticked s .dio .released false with stepCnt := 0, phase := .p2 }) ∧
    (s.phase = .p2 → s.stepCnt = 2 → exec .p2Start s =
      .next { ticked s .dio .low false with stepCnt := 0, phase := .p3 }) ∧
    (s.phase = .p5 → s.stepCnt = 3 → exec .p5Stop s =
      .next { ticked s .dio .released false with stepCnt := 0, byte := 0x80 + s.bright.setWidth 8, phase := .p6 }) ∧
    (s.phase = .p6 → s.stepCnt = 2 → exec .p6Start s =
      .next { ticked s .dio .low false with stepCnt := 0, phase := .p7 }) ∧
    (s.phase = .p8 → s.stepCnt = 3 → exec .p8Stop s =
      .next { ticked s .dio .released true with stepCnt := 0, phase := .idle })

/-- R120, R108: before its last micro-step a phase does nothing beyond delegating: one pin event, and STEP, BYTE and BITCNT as the
sub-machine leaves them; PHASE, IDX and all else stay. That executing a PHASE row there is one executed tick, with LAST_US and
`ret` = 0, is the model's reading (log 8; DEDUCED). -/
def Obligations.PhaseOnlyDelegatesBeforeItsLastStep : Prop :=
  ∀ s i, Executing s → LegalTriple (kindOf s.phase) s.stepCnt s.bitcnt → s.stepCnt ≠ lastStep (kindOf s.phase) →
    decodePhase s.phase.code = .ok i →
    ∃ t p v, exec i s = .next t ∧
      t = { ticked s p v false with stepCnt := t.stepCnt, byte := t.byte, bitcnt := t.bitcnt }

/-- R22, R108 case 1: the idle sentinel's entry finds nothing to do and returns 1, and it is what a TICK does there. -/
def Obligations.IdleEntryReturnsOne : Prop :=
  ∀ s, s.phase = .idle →
    exec .idle s = .next { s with tickRet := some true } ∧ exec .tick s = .next { s with tickRet := some true }

/-! ### Wire bytes -/

/-- R52, R142: bit `k` of the byte being emitted is the `k`-th data bit put on the data line, released for 1 and driven low for 0; for
the command bytes 0x40, 0xC0 + position, 0x80 + BRIGHT and for any data byte. That executing a WIREBYTE row is an executed tick
while its byte is being emitted is the model's reading (log 9; DEDUCED). This is the rows at B1; at every step of the byte they
are TICK (`ExecutedTickIsTheOperationEachLevelSelects`). -/
def Obligations.WireBytesGoOutLeastSignificantBitFirst : Prop :=
  ∀ s, Executing s → s.bitcnt.toNat < 8 → s.stepCnt = 1 →
    (s.phase = .p0 → s.byte = (0x40 : Byte) >>> s.bitcnt.toNat → exec .cmdMode s =
      .next { ticked s .dio (if (0x40 : Byte).getLsbD s.bitcnt.toNat then .released else .low) false with stepCnt := 2 }) ∧
    (∀ pos : BitVec 2, s.phase = .p3 → s.byte = (0xC0 + pos.setWidth 8 : Byte) >>> s.bitcnt.toNat → exec (.cmdAddr pos) s =
      .next { ticked s .dio (if (0xC0 + pos.setWidth 8 : Byte).getLsbD s.bitcnt.toNat then .released else .low) false with
        stepCnt := 2 }) ∧
    (∀ d : Byte, s.phase = .p4 → s.byte = d >>> s.bitcnt.toNat → exec (.data d) s =
      .next { ticked s .dio (if d.getLsbD s.bitcnt.toNat then .released else .low) false with stepCnt := 2 }) ∧
    (∀ (on : BitVec 1) (level : BitVec 3), s.phase = .p7 →
      s.byte = (0x80 + (on ++ level).setWidth 8 : Byte) >>> s.bitcnt.toNat → exec (.cmdCtrl on level) s =
      .next { ticked s .dio
        (if (0x80 + (on ++ level).setWidth 8 : Byte).getLsbD s.bitcnt.toNat then .released else .low) false with
        stepCnt := 2 })

/-- R148: from the start of a byte, in any byte phase, 28 executed ticks append exactly its 28 events and end the byte: BITCNT 0,
STEP 0, CLK low, DIO released, with the phase's completion action done. -/
def Obligations.OneByteTakesTwentyEightTicks : Prop :=
  ∀ s rest, kindOf s.phase = .byte → s.stepCnt = 0 → s.bitcnt = 0 → s.len.toNat ≤ 4 →
    s.nowMs - s.startMs ≤ Config.timing.wdogMs →
    (s.nowUs - s.lastUs).toNat + Config.timing.minUs.toNat < 2 ^ 32 →
    s.moves = runMoves 28 ++ rest →
    ∃ t, run 56 s = .next t ∧ t.wire = s.wire ++ byteEvents s.byte ∧ t.moves = rest ∧ t.tickRet = some false ∧
      t.nowUs = s.nowUs + BitVec.ofNat 32 (28 * Config.timing.minUs.toNat) ∧
      t = { afterCompletion { s with byte := 0, bitcnt := 0, stepCnt := 0 } with
        clk := .low, dio := .released, wire := t.wire, lastUs := t.nowUs, nowUs := t.nowUs, moves := rest,
        tickRet := some false, idleOut := none }

/-- R168: from any pins, three executed ticks of the Start generator append its three events, and four of the Stop generator its
four, and leave CLK released and DIO low, or both released. -/
def Obligations.LineConditionsAreFixedEventSequences : Prop :=
  ∀ s rest, s.stepCnt = 0 → s.nowMs - s.startMs ≤ Config.timing.wdogMs →
    (s.nowUs - s.lastUs).toNat + Config.timing.minUs.toNat < 2 ^ 32 →
    (kindOf s.phase = .start → s.moves = runMoves 3 ++ rest →
      ∃ t, run 6 s = .next t ∧ t.wire = s.wire ++ startEvents ∧ t.clk = .released ∧ t.dio = .low ∧ t.stepCnt = 0 ∧
        t.phase = (afterCompletion s).phase ∧ t.byte = (afterCompletion s).byte ∧ t.moves = rest) ∧
    (kindOf s.phase = .stop → s.moves = runMoves 4 ++ rest →
      ∃ t, run 8 s = .next t ∧ t.wire = s.wire ++ stopEvents ∧ t.clk = .released ∧ t.dio = .released ∧ t.stepCnt = 0 ∧
        t.phase = (afterCompletion s).phase ∧ t.byte = (afterCompletion s).byte ∧ t.moves = rest)

/-- R131, R217, R113 (b): an armed transmission of LEN bytes takes exactly 102 + 28 x LEN executed ticks; it is not idle before
the last, which returns 1; and the ticks append exactly the bytes, stops and starts of its three frames, with the position, the
buffer and the brightness it holds. -/
def Obligations.WholeTransmissionEmitsItsFrames : Prop :=
  ∀ s rest, s.phase = .p0 → s.stepCnt = 0 → s.bitcnt = 0 → s.byte = 0x40 → 1 ≤ s.len.toNat → s.len.toNat ≤ 4 →
    s.nowMs - s.startMs ≤ Config.timing.wdogMs →
    (s.nowUs - s.lastUs).toNat + Config.timing.minUs.toNat < 2 ^ 32 →
    s.moves = runMoves (102 + 28 * s.len.toNat) ++ rest →
    (∀ n, n < 102 + 28 * s.len.toNat → ∃ u, run (2 * n) s = .next u ∧ u.phase ≠ .idle) ∧
    ∃ t, run (2 * (102 + 28 * s.len.toNat)) s = .next t ∧ t.phase = .idle ∧ t.tickRet = some true ∧
      t.wire = s.wire ++ transmissionEvents s.pos (segBytes s) s.bright ∧
      t.clk = .released ∧ t.dio = .released ∧ t.idx = s.len ∧ t.byte = 0 ∧ t.stepCnt = 0 ∧ t.bitcnt = 0 ∧ t.moves = rest

/-- R72, R88, R53: from released lines and an empty trace, ARM with any operands, its arming and its ticks leave a trace that reads
as three frames: the mode byte; the address byte with the masked position and the bytes of the clamped length; the control byte
with the brightness. -/
def Obligations.ArmedTraceReadsAsThreeFrames : Prop :=
  ∀ s len pos seg d1 d2 d3, s.pre = .ready → s.clk = .released → s.dio = .released → s.wire = [] →
    s.seg.Pairwise (fun x y => x.1 < y.1) →
    Config.timing.settleUs ≤ BitVec.ofNat 32 d1 → Config.timing.startUs ≤ BitVec.ofNat 32 d2 →
    Config.timing.minUs ≤ BitVec.ofNat 32 (d1 + d2 + d3) →
    s.moves = armFullMoves len pos seg d1 d2 d3 ++ runMoves (101 + 28 * (clampLen len).toNat) →
    ∃ t, run (9 + 2 * (101 + 28 * (clampLen len).toNat)) s = .next t ∧ t.phase = .idle ∧ t.tickRet = some true ∧
      readWire .released .released t.wire =
        frameSymbols [0x40] ++
        frameSymbols ((0xC0 + (maskPos pos).setWidth 8) ::
          (List.range (clampLen len).toNat).map (fun i => seg.extractLsb' (8 * i) 8)) ++
        frameSymbols [0x80 + s.bright.setWidth 8]

/-! ### Invariants -/

/-- R44: the invariants hold after reset. They hold there with the values this model names for the registers R44 leaves
unspecified (log 2, log 3), and would with any that keep LEN at most 4 and IDX at most LEN. -/
def Obligations.InvariantsHoldAtReset : Prop := Invariants State.reset

/-- R37, R46, R24, R125 (e): every step keeps the legal (kind, STEP, BITCNT) triples, the ranges of LEN and IDX, the canonical
buffer, its zero fill and the shifted BYTE, from every state that has them. For the `rst` move, after which R44 leaves LEN, IDX,
BYTE and SEG unspecified, the ranges, the zero fill and the shifted BYTE rest on the reset values this model names (log 2, log 3;
DESIGN CHOICE). -/
def Obligations.EveryStepKeepsTheInvariants : Prop := ∀ s t, Invariants s → step s = .next t → Invariants t

/-- R182, R50, R83: from every state with the invariants, and a schedule that presents HOSTOP words, a step never stops: there is
no fault and no refusal, whatever the agents do and whenever; and the same holds of the next state. That the next state of the
`rst` move has the invariants rests on the reset values this model names for LEN, IDX, BYTE and SEG (log 2, log 3; DESIGN CHOICE);
that a step answers a next state does not. -/
def Obligations.NoStepStopsInAnInvariantState : Prop :=
  ∀ s, Invariants s → HostopSchedule s → ∃ t, step s = .next t ∧ Invariants t ∧ HostopSchedule t

/-- R41, R11: the pads are always what the trace since reset says, and each step keeps it so. -/
def Obligations.PadsAlwaysFollowTheTrace : Prop :=
  PadsFollowTrace State.reset ∧ ∀ s t, PadsFollowTrace s → step s = .next t → PadsFollowTrace t

/-- R112, R148, R168: with no executed tick while an arming is in progress (R208), every step keeps the pins an undisturbed
transmission has, whatever the host arms and when, through the watchdog too. -/
def Obligations.StepsKeepAnUndisturbedWire : Prop :=
  Undisturbed State.reset ∧
  ∀ s t, Undisturbed s → NoTickWhileArming s → step s = .next t → Undisturbed t

/-- R148, R163, R167: on an undisturbed wire an executed tick makes a start condition exactly at S2 and a stop condition exactly at
T3, so none arises inside a byte. -/
def Obligations.StartsAndStopsOnlyAtS2AndT3 : Prop :=
  ∀ s t, Undisturbed s → s.pre = .ready → Executing s → exec .tick s = .next t →
    ∃ e, t.wire = s.wire ++ [e] ∧
      (IsStart s.clk s.dio e ↔ kindOf s.phase = .start ∧ s.stepCnt = 2) ∧
      (IsStop s.clk s.dio e ↔ kindOf s.phase = .stop ∧ s.stepCnt = 3)

/-! ### What operations write, over all of them -/

/-- R41: an operation appends exactly one event where it writes a pin, which is an executed tick (TICK, or a row the registers
select: log 8, log 9) or an enabled ARM.RELC, ARM.RELD or ARM.STRT, and none anywhere else. -/
def Obligations.OneEventForEachPinWriteAndNoOther : Prop :=
  ∀ i s t, exec i s = .next t →
    (WritesPin i s → ∃ e, t.wire = s.wire ++ [e]) ∧ (¬ WritesPin i s → t.wire = s.wire)

/-- R22 to R36, R41, R100: each register, the trace and each output keeps its value but where one of its writers is performed, and
no operation writes an input or the schedule. An executed tick is TICK or a row the registers select (log 8, log 9). -/
def Obligations.EachRegisterHasOnlyItsWriters : Prop :=
  ∀ i s t, exec i s = .next t →
    (¬ (Loads i s ∨ ExecutesTick i s ∨ (i = .tick ∧ WatchdogHolds s)) → t.phase = s.phase) ∧
    (¬ (Loads i s ∨ ExecutesTick i s) →
      t.stepCnt = s.stepCnt ∧ t.byte = s.byte ∧ t.bitcnt = s.bitcnt ∧ t.idx = s.idx ∧ t.lastUs = s.lastUs) ∧
    (¬ Loads i s → t.seg = s.seg ∧ t.len = s.len ∧ t.pos = s.pos ∧ t.startMs = s.startMs) ∧
    (¬ (ExecutesTick i s ∨ (SubStep i s ∧ i = .armRelc)) → t.clk = s.clk) ∧
    (¬ (ExecutesTick i s ∨ (SubStep i s ∧ (i = .armReld ∨ i = .armStrt))) → t.dio = s.dio) ∧
    (¬ WritesPin i s → t.wire = s.wire) ∧
    (¬ (s.pre = .ready ∧ ∃ on level, i = .setbr on level) → t.bright = s.bright) ∧
    (¬ (SubStep i s ∧ (i = .armReld ∨ i = .armStrt)) → t.dlyUs = s.dlyUs) ∧
    (¬ (Loads i s ∨ SubStep i s) → t.pre = s.pre) ∧
    (¬ (i = .tick ∨ ExecutesTick i s ∨ (i = .idle ∧ s.phase = .idle)) → t.tickRet = s.tickRet) ∧
    (i ≠ .isidle → t.idleOut = s.idleOut) ∧
    t.nowUs = s.nowUs ∧ t.nowMs = s.nowMs ∧ t.rxLow = s.rxLow ∧ t.moves = s.moves

/-- R21, R130: of the operations only an executed tick (TICK, or a row the registers select: log 8, log 9), the watchdog branch of
TICK, and ARM.LOAD (ARM, CLEAR) change the pair (PHASE, STEP); and the only one of them that changes PHASE from idle is ARM.LOAD. -/
def Obligations.OnlyThreeEventsMoveTheSequencer : Prop :=
  ∀ i s t, exec i s = .next t → (t.phase ≠ s.phase ∨ t.stepCnt ≠ s.stepCnt) →
    ExecutesTick i s ∨ (i = .tick ∧ WatchdogHolds s ∧ t.phase = .idle ∧ t.stepCnt = s.stepCnt) ∨
    (Loads i s ∧ t.phase = .p0 ∧ t.stepCnt = 0)

/-- R113 (a), (c), R216: with PHASE = 15 and PRE = 0 no operation but ARM and CLEAR writes a pin or any register but BRIGHT, and
the state stays so. -/
def Obligations.IdleAndReadyIsQuiescent : Prop :=
  ∀ i s, s.phase = .idle → s.pre = .ready → (∀ len pos seg, i ≠ .arm len pos seg) → i ≠ .clear →
    ∃ t, exec i s = .next t ∧ t = { s with bright := t.bright, tickRet := t.tickRet, idleOut := t.idleOut }

/-! ### What no step can see -/

/-- R181, R192: the receiver is never observed: two machines that differ only in its pull on the data line take the same step, and
still differ in nothing else. -/
def Obligations.ReceiverIsNeverObserved : Prop :=
  ∀ s low, outcomesAgree (fun t u => u = { t with rxLow := u.rxLow }) (step s) (step { s with rxLow := low })

/-- R27, R28, R41, R11: no rule reads CLK, DIO or the trace. Two machines that differ only there take the same step and still
differ only there; both append the same events, changed value or not, and each pad of either is what those events say, or what it
was (D29); a reset gives both the same pads and the empty trace. -/
def Obligations.PadsAndTraceAreNeverRead : Prop :=
  ∀ s c d w, outcomesAgree
    (fun t u => u = { t with clk := u.clk, dio := u.dio, wire := u.wire } ∧
      (((∃ rest, s.moves = .rst :: rest) ∧ t.wire = [] ∧ u.wire = [] ∧ u.clk = t.clk ∧ u.dio = t.dio) ∨
        ∃ es, t.wire = s.wire ++ es ∧ u.wire = w ++ es ∧
          t.clk = padAfter .clk s.clk es ∧ t.dio = padAfter .dio s.dio es ∧
          u.clk = padAfter .clk c es ∧ u.dio = padAfter .dio d es))
    (step s) (step { s with clk := c, dio := d, wire := w })

/-- R62, R209: BRIGHT is sampled at the completion of phase 5 and nowhere else: at any other time a different brightness changes no
step but in BRIGHT itself. -/
def Obligations.BrightIsSampledOnlyAtTheEndOfPhase5 : Prop :=
  ∀ s b, ¬ (s.phase = .p5 ∧ s.stepCnt = 3) →
    outcomesAgree (fun t u => u = { t with bright := u.bright }) (step s) (step { s with bright := b })
end

