-- ==== Sys2Proof/Laws/Encoding.lean ====
section
/-! SUPPORT. The fields of the words the encoder makes, so that no proof about the codes unfolds a concatenation. -/

namespace Sys2Proof

/-- The bits of a HOSTOP word (R79). -/
theorem hostopWord_getLsbD (op : BitVec 3) (operands : BitVec 48) (i : Nat) :
    (hostopWord op operands).getLsbD i =
      if i < 48 then operands.getLsbD i else if i < 53 then false else op.getLsbD (i - 53) := by
  have h : (hostopWord op operands) = ((op ++ (0 : BitVec 5)) ++ operands : BitVec (3 + 5 + 48)) := rfl
  rw [h]
  erw [BitVec.getLsbD_append]
  erw [BitVec.getLsbD_append]
  by_cases h1 : i < 48
  · simp [h1]
  · by_cases h2 : i < 53
    · have : i - 48 < 5 := by omega
      simp [h1, h2, this]
    · have : ¬ i - 48 < 5 := by omega
      have e : i - 48 - 5 = i - 53 := by omega
      simp [h1, h2, this, e]

/-- Bits 52:48 of a HOSTOP word are zero. -/
@[simp] theorem hostopWord_zeroField (op : BitVec 3) (operands : BitVec 48) :
    (hostopWord op operands).extractLsb' 48 5 = 0 := by
  apply BitVec.eq_of_getLsbD_eq
  intro i hi
  have h1 : ¬ 48 + i < 48 := by omega
  have h2 : 48 + i < 53 := by omega
  simp [hostopWord_getLsbD, h2]

/-- The op field of a HOSTOP word. -/
@[simp] theorem hostopWord_op (op : BitVec 3) (operands : BitVec 48) :
    (hostopWord op operands).extractLsb' 53 3 = op := by
  apply BitVec.eq_of_getLsbD_eq
  intro i hi
  have h1 : ¬ 53 + i < 48 := by omega
  have h2 : ¬ 53 + i < 53 := by omega
  have h3 : 53 + i - 53 = i := by omega
  simp [hostopWord_getLsbD, hi, h1, h2, h3]

/-- A field of the operand bits of a HOSTOP word. -/
theorem hostopWord_field (op : BitVec 3) (operands : BitVec 48) (start len : Nat) (h : start + len ≤ 48) :
    (hostopWord op operands).extractLsb' start len = operands.extractLsb' start len := by
  apply BitVec.eq_of_getLsbD_eq
  intro i hi
  have h1 : start + i < 48 := by omega
  simp [hostopWord_getLsbD, hi, h1]

/-- The address byte of a position decodes to it (R74). -/
theorem decodeWirebyte_addr : ∀ pos : BitVec 2, decodeWirebyte .addr (cmdAddrByte pos) = .ok (.cmdAddr pos) := by decide

/-- The control byte of an on flag and a level decodes to them (R75). -/
theorem decodeWirebyte_ctrl : ∀ (on : BitVec 1) (level : BitVec 3),
    decodeWirebyte .ctrl (cmdCtrlByte (brightOf on level)) = .ok (.cmdCtrl on level) := by decide

/-- A byte that decodes as an address byte is the address byte of its low bits. -/
theorem cmdAddrByte_of_field : ∀ w : Byte, w.extractLsb' 2 6 = 0b110000 → cmdAddrByte (w.extractLsb' 0 2) = w := by decide

/-- A byte that decodes as a control byte is the control byte of its fields. -/
theorem cmdCtrlByte_of_field : ∀ w : Byte, w.extractLsb' 4 4 = 0b1000 →
    cmdCtrlByte (brightOf (w.extractLsb' 3 1) (w.extractLsb' 0 3)) = w := by decide

/-- The ARM operands in their fields (R79). -/
theorem armOperands_fields (len pos : BitVec 8) (seg : BitVec 32) :
    (len ++ pos ++ seg : BitVec 48).extractLsb' 40 8 = len ∧ (len ++ pos ++ seg : BitVec 48).extractLsb' 32 8 = pos ∧
    (len ++ pos ++ seg : BitVec 48).extractLsb' 0 32 = seg := by
  have bit : ∀ i, (len ++ pos ++ seg : BitVec 48).getLsbD i =
      if i < 32 then seg.getLsbD i else if i < 40 then pos.getLsbD (i - 32) else len.getLsbD (i - 40) := by
    intro i
    have h : (len ++ pos ++ seg : BitVec 48) = ((len ++ pos) ++ seg : BitVec (8 + 8 + 32)) := rfl
    rw [h]
    erw [BitVec.getLsbD_append, BitVec.getLsbD_append]
    by_cases h1 : i < 32
    · simp [h1]
    · by_cases h2 : i < 40
      · have : i - 32 < 8 := by omega
        simp [h1, h2, this]
      · have : ¬ i - 32 < 8 := by omega
        have e : i - 32 - 8 = i - 40 := by omega
        simp [h1, h2, this, e]
  refine ⟨?_, ?_, ?_⟩ <;> apply BitVec.eq_of_getLsbD_eq <;> intro i hi
  · have h1 : ¬ 40 + i < 32 := by omega
    have h2 : ¬ 40 + i < 40 := by omega
    simp [bit, hi, h1, h2]
  · have h1 : ¬ 32 + i < 32 := by omega
    have h2 : 32 + i < 40 := by omega
    simp [bit, hi, h2]
  · simp [bit, hi]

end Sys2Proof
end

