-- ==== Sys2Proof/Laws/Memory.lean ====
section
/-! SUPPORT. The segment buffer: a read gives what was last written, every other index is unchanged, and every operation keeps
the canonical form. -/

namespace Sys2Proof.Machine

/-- A read at the index just written. -/
theorem memGet_memPut_same (m : Memory) (a : Nat) (v : Byte) (h : m.Pairwise (fun x y => x.1 < y.1)) :
    memGet (memPut m a v) a = v := by
  induction m with
  | nil => by_cases hv : v = 0#8 <;> simp [memPut, memGet, hv]
  | cons c m ih =>
    obtain ⟨b, w⟩ := c
    have hm := (List.pairwise_cons.mp h)
    have absent : ∀ m' : Memory, (∀ y ∈ m', a < y.1) → memGet m' a = 0#8 := by
      intro m' h'
      induction m' with
      | nil => rfl
      | cons d m' ih' =>
        obtain ⟨e, x⟩ := d
        have h0 := h' (e, x) (by simp)
        have : e ≠ a := by simp at h0; omega
        simp only [memGet, this, if_false]
        exact ih' (fun y hy => h' y (by simp [hy]))
    rcases lt_trichotomy a b with hab | hab | hab
    · have hne : b ≠ a := by omega
      by_cases hv : v = 0#8
      · have := absent m (fun y hy => lt_trans hab (hm.1 y hy))
        simp [memPut, hab, hv, memGet, hne, this]
      · simp [memPut, hab, hv, memGet]
    · subst hab
      by_cases hv : v = 0#8
      · have := absent m (fun y hy => hm.1 y hy)
        simp [memPut, hv, this]
      · simp [memPut, hv, memGet]
    · have h1 : ¬ a < b := by omega
      have h2 : a ≠ b := by omega
      simp only [memPut, h1, h2, if_false, memGet, h2.symm]
      exact ih hm.2

/-- A read at any other index. -/
theorem memGet_memPut_other (m : Memory) (a b : Nat) (v : Byte) (h : a ≠ b) (hm : m.Pairwise (fun x y => x.1 < y.1)) :
    memGet (memPut m a v) b = memGet m b := by
  induction m with
  | nil => by_cases hv : v = 0#8 <;> simp [memPut, memGet, hv, h]
  | cons c m ih =>
    obtain ⟨e, w⟩ := c
    have hp := List.pairwise_cons.mp hm
    simp only [memPut]
    split
    · split
      · rfl
      · simp [memGet, h]
    · split
      · next hae =>
        subst hae
        split <;> simp [memGet, h]
      · simp only [memGet]
        split
        · rfl
        · exact ih hp.2

/-- Every listed index of a changed list is the changed one or was listed before. -/
theorem mem_memPut {m : Memory} {a : Nat} {v : Byte} {c : Host.Cell} (h : c ∈ memPut m a v) :
    (c = (a, v) ∧ v ≠ 0#8) ∨ c ∈ m := by
  induction m with
  | nil =>
    by_cases hv : v = 0#8
    · simp [memPut, hv] at h
    · simp [memPut, hv] at h
      exact .inl ⟨h, hv⟩
  | cons d m ih =>
    obtain ⟨e, w⟩ := d
    simp only [memPut] at h
    split at h
    · split at h
      · exact .inr h
      · next hv => rcases List.mem_cons.mp h with h | h
                   · exact .inl ⟨h, hv⟩
                   · exact .inr h
    · split at h
      · split at h
        · exact .inr (List.mem_cons_of_mem _ h)
        · next hv => rcases List.mem_cons.mp h with h | h
                     · exact .inl ⟨h, hv⟩
                     · exact .inr (List.mem_cons_of_mem _ h)
      · rcases List.mem_cons.mp h with h | h
        · exact .inr (by simp [h])
        · rcases ih h with h | h
          · exact .inl h
          · exact .inr (List.mem_cons_of_mem _ h)

/-- Changing a byte keeps the indices rising. -/
theorem memPut_pairwise (m : Memory) (a : Nat) (v : Byte) (h : m.Pairwise (fun x y => x.1 < y.1)) :
    (memPut m a v).Pairwise (fun x y => x.1 < y.1) := by
  induction m with
  | nil => by_cases hv : v = 0#8 <;> simp [memPut, hv]
  | cons c m ih =>
    obtain ⟨b, w⟩ := c
    have hm := List.pairwise_cons.mp h
    simp only [memPut]
    split
    · next hab =>
      split
      · exact h
      · refine List.pairwise_cons.mpr ⟨fun y hy => ?_, h⟩
        rcases List.mem_cons.mp hy with hy | hy
        · simpa [hy] using hab
        · exact lt_trans hab (hm.1 y hy)
    · next hab =>
      split
      · next hae =>
        subst hae
        split
        · exact hm.2
        · exact List.pairwise_cons.mpr ⟨hm.1, hm.2⟩
      · next hae =>
        refine List.pairwise_cons.mpr ⟨fun y hy => ?_, ih hm.2⟩
        rcases mem_memPut hy with ⟨hy, -⟩ | hy
        · simp only [hy]; omega
        · exact hm.1 y hy

/-- Changing a byte at an index that exists keeps the canonical form. -/
theorem memPut_wf {m : Memory} {a : Nat} {v : Byte} (h : Memory.wf m) (ha : a < 4) : Memory.wf (memPut m a v) := by
  refine ⟨memPut_pairwise m a v h.1, fun c hc => ?_⟩
  rcases mem_memPut hc with ⟨rfl, hv⟩ | hc
  · exact ⟨ha, hv⟩
  · exact h.2 c hc

/-- `MemWrite` keeps the canonical form. -/
theorem memWrite_wf {m m' : Memory} {i : Nat} {v : Byte} (h : Memory.wf m) (hw : memWrite m i v = some m') :
    Memory.wf m' := by
  simp only [memWrite] at hw
  split at hw
  · next hi => cases hw; exact memPut_wf h hi
  · cases hw

/-- The four stores of ARM.LOAD keep the canonical form. -/
theorem memFill_wf {m : Memory} (S : Nat → Byte) (h : Memory.wf m) : Memory.wf (memFill m S) :=
  memPut_wf (memPut_wf (memPut_wf (memPut_wf h (by omega)) (by omega)) (by omega)) (by omega)

/-- After the four stores of ARM.LOAD every index reads what was stored. -/
theorem memRead_memFill {m : Memory} (S : Nat → Byte) (h : m.Pairwise (fun x y => x.1 < y.1)) {i : Nat} (hi : i < 4) :
    memRead (memFill m S) i = some (S i) := by
  have h0 := memPut_pairwise m 0 (S 0) h
  have h1 := memPut_pairwise _ 1 (S 1) h0
  have h2 := memPut_pairwise _ 2 (S 2) h1
  simp only [memRead, hi, if_true, memFill, Option.some.injEq]
  obtain rfl | rfl | rfl | rfl : i = 0 ∨ i = 1 ∨ i = 2 ∨ i = 3 := by omega
  · rw [memGet_memPut_other _ _ _ _ (by decide) h2, memGet_memPut_other _ _ _ _ (by decide) h1,
      memGet_memPut_other _ _ _ _ (by decide) h0, memGet_memPut_same _ _ _ h]
  · rw [memGet_memPut_other _ _ _ _ (by decide) h2, memGet_memPut_other _ _ _ _ (by decide) h1,
      memGet_memPut_same _ _ _ h0]
  · rw [memGet_memPut_other _ _ _ _ (by decide) h2, memGet_memPut_same _ _ _ h1]
  · exact memGet_memPut_same _ _ _ h2

/-- A read of an index that exists answers. -/
theorem memRead_some (m : Memory) {i : Nat} (hi : i < 4) : memRead m i = some (memGet m i) := by simp [memRead, hi]

/-- The empty buffer is canonical. -/
theorem memory_wf_nil : Memory.wf [] := by decide

end Sys2Proof.Machine
end

