-- ==== Sys2Proof/Laws/State.lean ====
section
/-! SUPPORT. What each named update of State leaves in each field: one lemma per field per update, so that no later proof unfolds
a record update. -/

namespace Sys2Proof.Machine

/-! ### drive -/

@[simp] theorem State.drive_phase (s : State) (p : Pin) (v : Level) : (s.drive p v).phase = s.phase := by cases p <;> rfl
@[simp] theorem State.drive_stepCnt (s : State) (p : Pin) (v : Level) : (s.drive p v).stepCnt = s.stepCnt := by cases p <;> rfl
@[simp] theorem State.drive_byte (s : State) (p : Pin) (v : Level) : (s.drive p v).byte = s.byte := by cases p <;> rfl
@[simp] theorem State.drive_bitcnt (s : State) (p : Pin) (v : Level) : (s.drive p v).bitcnt = s.bitcnt := by cases p <;> rfl
@[simp] theorem State.drive_idx (s : State) (p : Pin) (v : Level) : (s.drive p v).idx = s.idx := by cases p <;> rfl
@[simp] theorem State.drive_bright (s : State) (p : Pin) (v : Level) : (s.drive p v).bright = s.bright := by cases p <;> rfl
@[simp] theorem State.drive_len (s : State) (p : Pin) (v : Level) : (s.drive p v).len = s.len := by cases p <;> rfl
@[simp] theorem State.drive_pos (s : State) (p : Pin) (v : Level) : (s.drive p v).pos = s.pos := by cases p <;> rfl
@[simp] theorem State.drive_seg (s : State) (p : Pin) (v : Level) : (s.drive p v).seg = s.seg := by cases p <;> rfl
@[simp] theorem State.drive_lastUs (s : State) (p : Pin) (v : Level) : (s.drive p v).lastUs = s.lastUs := by cases p <;> rfl
@[simp] theorem State.drive_startMs (s : State) (p : Pin) (v : Level) : (s.drive p v).startMs = s.startMs := by cases p <;> rfl
@[simp] theorem State.drive_pre (s : State) (p : Pin) (v : Level) : (s.drive p v).pre = s.pre := by cases p <;> rfl
@[simp] theorem State.drive_dlyUs (s : State) (p : Pin) (v : Level) : (s.drive p v).dlyUs = s.dlyUs := by cases p <;> rfl
@[simp] theorem State.drive_nowUs (s : State) (p : Pin) (v : Level) : (s.drive p v).nowUs = s.nowUs := by cases p <;> rfl
@[simp] theorem State.drive_nowMs (s : State) (p : Pin) (v : Level) : (s.drive p v).nowMs = s.nowMs := by cases p <;> rfl
@[simp] theorem State.drive_rxLow (s : State) (p : Pin) (v : Level) : (s.drive p v).rxLow = s.rxLow := by cases p <;> rfl
@[simp] theorem State.drive_moves (s : State) (p : Pin) (v : Level) : (s.drive p v).moves = s.moves := by cases p <;> rfl
@[simp] theorem State.drive_tickRet (s : State) (p : Pin) (v : Level) : (s.drive p v).tickRet = s.tickRet := by cases p <;> rfl
@[simp] theorem State.drive_idleOut (s : State) (p : Pin) (v : Level) : (s.drive p v).idleOut = s.idleOut := by cases p <;> rfl
@[simp] theorem State.drive_wire (s : State) (p : Pin) (v : Level) : (s.drive p v).wire = s.wire ++ [⟨p, v⟩] := by
  cases p <;> rfl
@[simp] theorem State.drive_clk_clk (s : State) (v : Level) : (s.drive .clk v).clk = v := rfl
@[simp] theorem State.drive_clk_dio (s : State) (v : Level) : (s.drive .clk v).dio = s.dio := rfl
@[simp] theorem State.drive_dio_clk (s : State) (v : Level) : (s.drive .dio v).clk = s.clk := rfl
@[simp] theorem State.drive_dio_dio (s : State) (v : Level) : (s.drive .dio v).dio = v := rfl

/-! ### consume -/

@[simp] theorem State.consume_phase (s : State) (rest : List Move) : (s.consume rest).phase = s.phase := rfl
@[simp] theorem State.consume_stepCnt (s : State) (rest : List Move) : (s.consume rest).stepCnt = s.stepCnt := rfl
@[simp] theorem State.consume_byte (s : State) (rest : List Move) : (s.consume rest).byte = s.byte := rfl
@[simp] theorem State.consume_bitcnt (s : State) (rest : List Move) : (s.consume rest).bitcnt = s.bitcnt := rfl
@[simp] theorem State.consume_idx (s : State) (rest : List Move) : (s.consume rest).idx = s.idx := rfl
@[simp] theorem State.consume_clk (s : State) (rest : List Move) : (s.consume rest).clk = s.clk := rfl
@[simp] theorem State.consume_dio (s : State) (rest : List Move) : (s.consume rest).dio = s.dio := rfl
@[simp] theorem State.consume_bright (s : State) (rest : List Move) : (s.consume rest).bright = s.bright := rfl
@[simp] theorem State.consume_len (s : State) (rest : List Move) : (s.consume rest).len = s.len := rfl
@[simp] theorem State.consume_pos (s : State) (rest : List Move) : (s.consume rest).pos = s.pos := rfl
@[simp] theorem State.consume_seg (s : State) (rest : List Move) : (s.consume rest).seg = s.seg := rfl
@[simp] theorem State.consume_lastUs (s : State) (rest : List Move) : (s.consume rest).lastUs = s.lastUs := rfl
@[simp] theorem State.consume_startMs (s : State) (rest : List Move) : (s.consume rest).startMs = s.startMs := rfl
@[simp] theorem State.consume_pre (s : State) (rest : List Move) : (s.consume rest).pre = s.pre := rfl
@[simp] theorem State.consume_dlyUs (s : State) (rest : List Move) : (s.consume rest).dlyUs = s.dlyUs := rfl
@[simp] theorem State.consume_wire (s : State) (rest : List Move) : (s.consume rest).wire = s.wire := rfl
@[simp] theorem State.consume_nowUs (s : State) (rest : List Move) : (s.consume rest).nowUs = s.nowUs := rfl
@[simp] theorem State.consume_nowMs (s : State) (rest : List Move) : (s.consume rest).nowMs = s.nowMs := rfl
@[simp] theorem State.consume_rxLow (s : State) (rest : List Move) : (s.consume rest).rxLow = s.rxLow := rfl
@[simp] theorem State.consume_moves (s : State) (rest : List Move) : (s.consume rest).moves = rest := rfl
@[simp] theorem State.consume_tickRet (s : State) (rest : List Move) : (s.consume rest).tickRet = none := rfl
@[simp] theorem State.consume_idleOut (s : State) (rest : List Move) : (s.consume rest).idleOut = none := rfl

/-! ### recordRet -/

@[simp] theorem State.recordRet_phase (s : State) : (s.recordRet).phase = s.phase := rfl
@[simp] theorem State.recordRet_stepCnt (s : State) : (s.recordRet).stepCnt = s.stepCnt := rfl
@[simp] theorem State.recordRet_byte (s : State) : (s.recordRet).byte = s.byte := rfl
@[simp] theorem State.recordRet_bitcnt (s : State) : (s.recordRet).bitcnt = s.bitcnt := rfl
@[simp] theorem State.recordRet_idx (s : State) : (s.recordRet).idx = s.idx := rfl
@[simp] theorem State.recordRet_clk (s : State) : (s.recordRet).clk = s.clk := rfl
@[simp] theorem State.recordRet_dio (s : State) : (s.recordRet).dio = s.dio := rfl
@[simp] theorem State.recordRet_bright (s : State) : (s.recordRet).bright = s.bright := rfl
@[simp] theorem State.recordRet_len (s : State) : (s.recordRet).len = s.len := rfl
@[simp] theorem State.recordRet_pos (s : State) : (s.recordRet).pos = s.pos := rfl
@[simp] theorem State.recordRet_seg (s : State) : (s.recordRet).seg = s.seg := rfl
@[simp] theorem State.recordRet_lastUs (s : State) : (s.recordRet).lastUs = s.lastUs := rfl
@[simp] theorem State.recordRet_startMs (s : State) : (s.recordRet).startMs = s.startMs := rfl
@[simp] theorem State.recordRet_pre (s : State) : (s.recordRet).pre = s.pre := rfl
@[simp] theorem State.recordRet_dlyUs (s : State) : (s.recordRet).dlyUs = s.dlyUs := rfl
@[simp] theorem State.recordRet_wire (s : State) : (s.recordRet).wire = s.wire := rfl
@[simp] theorem State.recordRet_nowUs (s : State) : (s.recordRet).nowUs = s.nowUs := rfl
@[simp] theorem State.recordRet_nowMs (s : State) : (s.recordRet).nowMs = s.nowMs := rfl
@[simp] theorem State.recordRet_rxLow (s : State) : (s.recordRet).rxLow = s.rxLow := rfl
@[simp] theorem State.recordRet_moves (s : State) : (s.recordRet).moves = s.moves := rfl
@[simp] theorem State.recordRet_tickRet (s : State) : (s.recordRet).tickRet = some (s.phase == .idle) := rfl
@[simp] theorem State.recordRet_idleOut (s : State) : (s.recordRet).idleOut = s.idleOut := rfl

/-! ### takeWatchdog -/

@[simp] theorem State.takeWatchdog_phase (s : State) : (s.takeWatchdog).phase = .idle := rfl
@[simp] theorem State.takeWatchdog_stepCnt (s : State) : (s.takeWatchdog).stepCnt = s.stepCnt := rfl
@[simp] theorem State.takeWatchdog_byte (s : State) : (s.takeWatchdog).byte = s.byte := rfl
@[simp] theorem State.takeWatchdog_bitcnt (s : State) : (s.takeWatchdog).bitcnt = s.bitcnt := rfl
@[simp] theorem State.takeWatchdog_idx (s : State) : (s.takeWatchdog).idx = s.idx := rfl
@[simp] theorem State.takeWatchdog_clk (s : State) : (s.takeWatchdog).clk = s.clk := rfl
@[simp] theorem State.takeWatchdog_dio (s : State) : (s.takeWatchdog).dio = s.dio := rfl
@[simp] theorem State.takeWatchdog_bright (s : State) : (s.takeWatchdog).bright = s.bright := rfl
@[simp] theorem State.takeWatchdog_len (s : State) : (s.takeWatchdog).len = s.len := rfl
@[simp] theorem State.takeWatchdog_pos (s : State) : (s.takeWatchdog).pos = s.pos := rfl
@[simp] theorem State.takeWatchdog_seg (s : State) : (s.takeWatchdog).seg = s.seg := rfl
@[simp] theorem State.takeWatchdog_lastUs (s : State) : (s.takeWatchdog).lastUs = s.lastUs := rfl
@[simp] theorem State.takeWatchdog_startMs (s : State) : (s.takeWatchdog).startMs = s.startMs := rfl
@[simp] theorem State.takeWatchdog_pre (s : State) : (s.takeWatchdog).pre = s.pre := rfl
@[simp] theorem State.takeWatchdog_dlyUs (s : State) : (s.takeWatchdog).dlyUs = s.dlyUs := rfl
@[simp] theorem State.takeWatchdog_wire (s : State) : (s.takeWatchdog).wire = s.wire := rfl
@[simp] theorem State.takeWatchdog_nowUs (s : State) : (s.takeWatchdog).nowUs = s.nowUs := rfl
@[simp] theorem State.takeWatchdog_nowMs (s : State) : (s.takeWatchdog).nowMs = s.nowMs := rfl
@[simp] theorem State.takeWatchdog_rxLow (s : State) : (s.takeWatchdog).rxLow = s.rxLow := rfl
@[simp] theorem State.takeWatchdog_moves (s : State) : (s.takeWatchdog).moves = s.moves := rfl
@[simp] theorem State.takeWatchdog_tickRet (s : State) : (s.takeWatchdog).tickRet = s.tickRet := rfl
@[simp] theorem State.takeWatchdog_idleOut (s : State) : (s.takeWatchdog).idleOut = s.idleOut := rfl

/-! ### advance -/

@[simp] theorem State.advance_phase (s : State) (dUs dMs : Nat) : (s.advance dUs dMs).phase = s.phase := rfl
@[simp] theorem State.advance_stepCnt (s : State) (dUs dMs : Nat) : (s.advance dUs dMs).stepCnt = s.stepCnt := rfl
@[simp] theorem State.advance_byte (s : State) (dUs dMs : Nat) : (s.advance dUs dMs).byte = s.byte := rfl
@[simp] theorem State.advance_bitcnt (s : State) (dUs dMs : Nat) : (s.advance dUs dMs).bitcnt = s.bitcnt := rfl
@[simp] theorem State.advance_idx (s : State) (dUs dMs : Nat) : (s.advance dUs dMs).idx = s.idx := rfl
@[simp] theorem State.advance_clk (s : State) (dUs dMs : Nat) : (s.advance dUs dMs).clk = s.clk := rfl
@[simp] theorem State.advance_dio (s : State) (dUs dMs : Nat) : (s.advance dUs dMs).dio = s.dio := rfl
@[simp] theorem State.advance_bright (s : State) (dUs dMs : Nat) : (s.advance dUs dMs).bright = s.bright := rfl
@[simp] theorem State.advance_len (s : State) (dUs dMs : Nat) : (s.advance dUs dMs).len = s.len := rfl
@[simp] theorem State.advance_pos (s : State) (dUs dMs : Nat) : (s.advance dUs dMs).pos = s.pos := rfl
@[simp] theorem State.advance_seg (s : State) (dUs dMs : Nat) : (s.advance dUs dMs).seg = s.seg := rfl
@[simp] theorem State.advance_lastUs (s : State) (dUs dMs : Nat) : (s.advance dUs dMs).lastUs = s.lastUs := rfl
@[simp] theorem State.advance_startMs (s : State) (dUs dMs : Nat) : (s.advance dUs dMs).startMs = s.startMs := rfl
@[simp] theorem State.advance_pre (s : State) (dUs dMs : Nat) : (s.advance dUs dMs).pre = s.pre := rfl
@[simp] theorem State.advance_dlyUs (s : State) (dUs dMs : Nat) : (s.advance dUs dMs).dlyUs = s.dlyUs := rfl
@[simp] theorem State.advance_wire (s : State) (dUs dMs : Nat) : (s.advance dUs dMs).wire = s.wire := rfl
@[simp] theorem State.advance_nowUs (s : State) (dUs dMs : Nat) : (s.advance dUs dMs).nowUs = s.nowUs + BitVec.ofNat 32 dUs := rfl
@[simp] theorem State.advance_nowMs (s : State) (dUs dMs : Nat) : (s.advance dUs dMs).nowMs = s.nowMs + BitVec.ofNat 32 dMs := rfl
@[simp] theorem State.advance_rxLow (s : State) (dUs dMs : Nat) : (s.advance dUs dMs).rxLow = s.rxLow := rfl
@[simp] theorem State.advance_moves (s : State) (dUs dMs : Nat) : (s.advance dUs dMs).moves = s.moves := rfl
@[simp] theorem State.advance_tickRet (s : State) (dUs dMs : Nat) : (s.advance dUs dMs).tickRet = s.tickRet := rfl
@[simp] theorem State.advance_idleOut (s : State) (dUs dMs : Nat) : (s.advance dUs dMs).idleOut = s.idleOut := rfl

/-! ### setReceiver -/

@[simp] theorem State.setReceiver_phase (s : State) (low : Bool) : (s.setReceiver low).phase = s.phase := rfl
@[simp] theorem State.setReceiver_stepCnt (s : State) (low : Bool) : (s.setReceiver low).stepCnt = s.stepCnt := rfl
@[simp] theorem State.setReceiver_byte (s : State) (low : Bool) : (s.setReceiver low).byte = s.byte := rfl
@[simp] theorem State.setReceiver_bitcnt (s : State) (low : Bool) : (s.setReceiver low).bitcnt = s.bitcnt := rfl
@[simp] theorem State.setReceiver_idx (s : State) (low : Bool) : (s.setReceiver low).idx = s.idx := rfl
@[simp] theorem State.setReceiver_clk (s : State) (low : Bool) : (s.setReceiver low).clk = s.clk := rfl
@[simp] theorem State.setReceiver_dio (s : State) (low : Bool) : (s.setReceiver low).dio = s.dio := rfl
@[simp] theorem State.setReceiver_bright (s : State) (low : Bool) : (s.setReceiver low).bright = s.bright := rfl
@[simp] theorem State.setReceiver_len (s : State) (low : Bool) : (s.setReceiver low).len = s.len := rfl
@[simp] theorem State.setReceiver_pos (s : State) (low : Bool) : (s.setReceiver low).pos = s.pos := rfl
@[simp] theorem State.setReceiver_seg (s : State) (low : Bool) : (s.setReceiver low).seg = s.seg := rfl
@[simp] theorem State.setReceiver_lastUs (s : State) (low : Bool) : (s.setReceiver low).lastUs = s.lastUs := rfl
@[simp] theorem State.setReceiver_startMs (s : State) (low : Bool) : (s.setReceiver low).startMs = s.startMs := rfl
@[simp] theorem State.setReceiver_pre (s : State) (low : Bool) : (s.setReceiver low).pre = s.pre := rfl
@[simp] theorem State.setReceiver_dlyUs (s : State) (low : Bool) : (s.setReceiver low).dlyUs = s.dlyUs := rfl
@[simp] theorem State.setReceiver_wire (s : State) (low : Bool) : (s.setReceiver low).wire = s.wire := rfl
@[simp] theorem State.setReceiver_nowUs (s : State) (low : Bool) : (s.setReceiver low).nowUs = s.nowUs := rfl
@[simp] theorem State.setReceiver_nowMs (s : State) (low : Bool) : (s.setReceiver low).nowMs = s.nowMs := rfl
@[simp] theorem State.setReceiver_rxLow (s : State) (low : Bool) : (s.setReceiver low).rxLow = low := rfl
@[simp] theorem State.setReceiver_moves (s : State) (low : Bool) : (s.setReceiver low).moves = s.moves := rfl
@[simp] theorem State.setReceiver_tickRet (s : State) (low : Bool) : (s.setReceiver low).tickRet = s.tickRet := rfl
@[simp] theorem State.setReceiver_idleOut (s : State) (low : Bool) : (s.setReceiver low).idleOut = s.idleOut := rfl

/-! ### armLoad -/

@[simp] theorem State.armLoad_phase (s : State) (len pos : BitVec 8) (seg : BitVec 32) : (s.armLoad len pos seg).phase = .p0 := rfl
@[simp] theorem State.armLoad_stepCnt (s : State) (len pos : BitVec 8) (seg : BitVec 32) : (s.armLoad len pos seg).stepCnt = 0 := rfl
@[simp] theorem State.armLoad_byte (s : State) (len pos : BitVec 8) (seg : BitVec 32) : (s.armLoad len pos seg).byte = cmdModeByte := rfl
@[simp] theorem State.armLoad_bitcnt (s : State) (len pos : BitVec 8) (seg : BitVec 32) : (s.armLoad len pos seg).bitcnt = 0 := rfl
@[simp] theorem State.armLoad_idx (s : State) (len pos : BitVec 8) (seg : BitVec 32) : (s.armLoad len pos seg).idx = 0 := rfl
@[simp] theorem State.armLoad_clk (s : State) (len pos : BitVec 8) (seg : BitVec 32) : (s.armLoad len pos seg).clk = s.clk := rfl
@[simp] theorem State.armLoad_dio (s : State) (len pos : BitVec 8) (seg : BitVec 32) : (s.armLoad len pos seg).dio = s.dio := rfl
@[simp] theorem State.armLoad_bright (s : State) (len pos : BitVec 8) (seg : BitVec 32) : (s.armLoad len pos seg).bright = s.bright := rfl
@[simp] theorem State.armLoad_len (s : State) (len pos : BitVec 8) (seg : BitVec 32) : (s.armLoad len pos seg).len = clampLen len := rfl
@[simp] theorem State.armLoad_pos (s : State) (len pos : BitVec 8) (seg : BitVec 32) : (s.armLoad len pos seg).pos = maskPos pos := rfl
@[simp] theorem State.armLoad_seg (s : State) (len pos : BitVec 8) (seg : BitVec 32) : (s.armLoad len pos seg).seg = memFill s.seg (segByte seg (clampLen len)) := rfl
@[simp] theorem State.armLoad_lastUs (s : State) (len pos : BitVec 8) (seg : BitVec 32) : (s.armLoad len pos seg).lastUs = s.nowUs := rfl
@[simp] theorem State.armLoad_startMs (s : State) (len pos : BitVec 8) (seg : BitVec 32) : (s.armLoad len pos seg).startMs = s.nowMs := rfl
@[simp] theorem State.armLoad_pre (s : State) (len pos : BitVec 8) (seg : BitVec 32) : (s.armLoad len pos seg).pre = .relc := rfl
@[simp] theorem State.armLoad_dlyUs (s : State) (len pos : BitVec 8) (seg : BitVec 32) : (s.armLoad len pos seg).dlyUs = s.dlyUs := rfl
@[simp] theorem State.armLoad_wire (s : State) (len pos : BitVec 8) (seg : BitVec 32) : (s.armLoad len pos seg).wire = s.wire := rfl
@[simp] theorem State.armLoad_nowUs (s : State) (len pos : BitVec 8) (seg : BitVec 32) : (s.armLoad len pos seg).nowUs = s.nowUs := rfl
@[simp] theorem State.armLoad_nowMs (s : State) (len pos : BitVec 8) (seg : BitVec 32) : (s.armLoad len pos seg).nowMs = s.nowMs := rfl
@[simp] theorem State.armLoad_rxLow (s : State) (len pos : BitVec 8) (seg : BitVec 32) : (s.armLoad len pos seg).rxLow = s.rxLow := rfl
@[simp] theorem State.armLoad_moves (s : State) (len pos : BitVec 8) (seg : BitVec 32) : (s.armLoad len pos seg).moves = s.moves := rfl
@[simp] theorem State.armLoad_tickRet (s : State) (len pos : BitVec 8) (seg : BitVec 32) : (s.armLoad len pos seg).tickRet = s.tickRet := rfl
@[simp] theorem State.armLoad_idleOut (s : State) (len pos : BitVec 8) (seg : BitVec 32) : (s.armLoad len pos seg).idleOut = s.idleOut := rfl

/-! ### construct -/

@[simp] theorem State.construct_phase (s : State) : (s.construct).phase = State.reset.phase := rfl
@[simp] theorem State.construct_stepCnt (s : State) : (s.construct).stepCnt = State.reset.stepCnt := rfl
@[simp] theorem State.construct_byte (s : State) : (s.construct).byte = State.reset.byte := rfl
@[simp] theorem State.construct_bitcnt (s : State) : (s.construct).bitcnt = State.reset.bitcnt := rfl
@[simp] theorem State.construct_idx (s : State) : (s.construct).idx = State.reset.idx := rfl
@[simp] theorem State.construct_clk (s : State) : (s.construct).clk = State.reset.clk := rfl
@[simp] theorem State.construct_dio (s : State) : (s.construct).dio = State.reset.dio := rfl
@[simp] theorem State.construct_bright (s : State) : (s.construct).bright = State.reset.bright := rfl
@[simp] theorem State.construct_len (s : State) : (s.construct).len = State.reset.len := rfl
@[simp] theorem State.construct_pos (s : State) : (s.construct).pos = State.reset.pos := rfl
@[simp] theorem State.construct_seg (s : State) : (s.construct).seg = State.reset.seg := rfl
@[simp] theorem State.construct_lastUs (s : State) : (s.construct).lastUs = State.reset.lastUs := rfl
@[simp] theorem State.construct_startMs (s : State) : (s.construct).startMs = State.reset.startMs := rfl
@[simp] theorem State.construct_pre (s : State) : (s.construct).pre = State.reset.pre := rfl
@[simp] theorem State.construct_dlyUs (s : State) : (s.construct).dlyUs = State.reset.dlyUs := rfl
@[simp] theorem State.construct_wire (s : State) : (s.construct).wire = State.reset.wire := rfl
@[simp] theorem State.construct_nowUs (s : State) : (s.construct).nowUs = s.nowUs := rfl
@[simp] theorem State.construct_nowMs (s : State) : (s.construct).nowMs = s.nowMs := rfl
@[simp] theorem State.construct_rxLow (s : State) : (s.construct).rxLow = s.rxLow := rfl
@[simp] theorem State.construct_moves (s : State) : (s.construct).moves = s.moves := rfl
@[simp] theorem State.construct_tickRet (s : State) : (s.construct).tickRet = State.reset.tickRet := rfl
@[simp] theorem State.construct_idleOut (s : State) : (s.construct).idleOut = State.reset.idleOut := rfl

/-! ### readyToTick -/

@[simp] theorem State.readyToTick_phase (s : State) : (s.readyToTick).phase = s.phase := rfl
@[simp] theorem State.readyToTick_stepCnt (s : State) : (s.readyToTick).stepCnt = s.stepCnt := rfl
@[simp] theorem State.readyToTick_byte (s : State) : (s.readyToTick).byte = s.byte := rfl
@[simp] theorem State.readyToTick_bitcnt (s : State) : (s.readyToTick).bitcnt = s.bitcnt := rfl
@[simp] theorem State.readyToTick_idx (s : State) : (s.readyToTick).idx = s.idx := rfl
@[simp] theorem State.readyToTick_clk (s : State) : (s.readyToTick).clk = s.clk := rfl
@[simp] theorem State.readyToTick_dio (s : State) : (s.readyToTick).dio = s.dio := rfl
@[simp] theorem State.readyToTick_bright (s : State) : (s.readyToTick).bright = s.bright := rfl
@[simp] theorem State.readyToTick_len (s : State) : (s.readyToTick).len = s.len := rfl
@[simp] theorem State.readyToTick_pos (s : State) : (s.readyToTick).pos = s.pos := rfl
@[simp] theorem State.readyToTick_seg (s : State) : (s.readyToTick).seg = s.seg := rfl
@[simp] theorem State.readyToTick_lastUs (s : State) : (s.readyToTick).lastUs = s.nowUs + 1 := rfl
@[simp] theorem State.readyToTick_startMs (s : State) : (s.readyToTick).startMs = s.nowMs := rfl
@[simp] theorem State.readyToTick_pre (s : State) : (s.readyToTick).pre = s.pre := rfl
@[simp] theorem State.readyToTick_dlyUs (s : State) : (s.readyToTick).dlyUs = s.dlyUs := rfl
@[simp] theorem State.readyToTick_wire (s : State) : (s.readyToTick).wire = s.wire := rfl
@[simp] theorem State.readyToTick_nowUs (s : State) : (s.readyToTick).nowUs = s.nowUs := rfl
@[simp] theorem State.readyToTick_nowMs (s : State) : (s.readyToTick).nowMs = s.nowMs := rfl
@[simp] theorem State.readyToTick_rxLow (s : State) : (s.readyToTick).rxLow = s.rxLow := rfl
@[simp] theorem State.readyToTick_moves (s : State) : (s.readyToTick).moves = .present tickWord :: s.moves := rfl
@[simp] theorem State.readyToTick_tickRet (s : State) : (s.readyToTick).tickRet = s.tickRet := rfl
@[simp] theorem State.readyToTick_idleOut (s : State) : (s.readyToTick).idleOut = s.idleOut := rfl

end Sys2Proof.Machine
end

