-- ==== Sys2Proof/Laws/Ops.lean ====
section
/-! SUPPORT. One lemma per shared operation that says everything it can do: steps that happen only when enabled, the executed
tick, the selection of the micro-step, the completion actions, and the fetch. -/

namespace Sys2Proof.Machine

open Sys2Proof.Safety

/-! ### whenEnabled -/

@[simp] theorem whenEnabled_true (o : Outcome) (s : State) : whenEnabled true o s = o := by cases o <;> rfl

@[simp] theorem whenEnabled_false (o : Outcome) (s : State) : whenEnabled false o s = .next s := by cases o <;> rfl

/-- A step that may be enabled, as a case split on its condition. -/
theorem whenEnabled_eq (c : Bool) (o : Outcome) (s : State) : whenEnabled c o s = if c then o else .next s := by
  cases c <;> simp

/-- If such a step answers a next state, it was enabled and answered it, or was not and left the other. -/
theorem whenEnabled_next {c : Bool} {o : Outcome} {s t : State} (h : whenEnabled c o s = .next t) :
    (c = true ∧ o = .next t) ∨ (c = false ∧ t = s) := by
  cases c
  · exact .inr ⟨rfl, by simpa using h.symm⟩
  · exact .inl ⟨rfl, by simpa using h⟩

/-! ### Comparators and outputs -/

theorem watchdogExpired_iff (T : Timing) (s : State) : watchdogExpired T s = true ↔ T.wdogMs < s.nowMs - s.startMs := by
  simp [watchdogExpired, State.elapsedMs]

theorem tooEarly_iff (T : Timing) (s : State) : tooEarly T s = true ↔ s.nowUs - s.lastUs < T.minUs := by
  simp [tooEarly, State.elapsedUs]

theorem holdElapsed_iff (hold : Time) (s : State) : holdElapsed hold s = true ↔ hold ≤ s.nowUs - s.dlyUs := by
  simp [holdElapsed, State.elapsedUs]

theorem idleOutput_iff (T : Timing) (s : State) :
    idleOutput T s = true ↔ s.phase = .idle ∨ T.wdogMs < s.nowMs - s.startMs := by
  simp [idleOutput, watchdogExpired_iff]

theorem cmdReady_iff (s : State) : s.cmdReady = true ↔ s.pre = .ready := by simp [State.cmdReady]

/-- A host command is accepted with PRE = 0 and does nothing otherwise. -/
theorem whenReady (o : Outcome) (s : State) : whenEnabled s.cmdReady o s = if s.pre = .ready then o else .next s := by
  rw [whenEnabled_eq]
  by_cases h : s.pre = .ready <;> simp [State.cmdReady, h]

/-! ### When a tick executes -/

/-- A tick executes, whatever the timing parameters, when PHASE is not idle, no time has passed since arming, and the longest has
since the last executed tick. -/
theorem executing_of_longest {s : State} (h : s.phase ≠ .idle) (h1 : s.lastUs = s.nowUs + 1) (h2 : s.startMs = s.nowMs) :
    Executing s := by
  refine ⟨h, ?_, ?_⟩
  · rw [h2, BitVec.le_def]; simp
  · have e : s.nowUs - s.lastUs = 4294967295#32 := by rw [h1]; bv_omega
    rw [e, BitVec.le_def]
    have := Config.timing.minUs.isLt
    simp
    omega

/-- The executed-tick condition of the machine is the spec's. -/
theorem executes_iff (s : State) : executes Config.timing s = true ↔ Executing s := by
  simp [executes, watchdogExpired, tooEarly, State.elapsedMs, State.elapsedUs, Executing, and_assoc, BitVec.lt_def, BitVec.le_def]

/-- Recording the time of a tick changes no selection. -/
theorem executes_eq_false_iff (s : State) : executes Config.timing s = false ↔ ¬ Executing s := by
  rw [← executes_iff]; simp

/-! ### The executed tick -/

/-- The outcome of an executed tick, by its micro-step's `done`. -/
theorem runMicro_notDone {micro : State → Micro} {completion : State → Outcome} {s t : State}
    (h : micro { s with lastUs := s.nowUs } = (t, false)) : runMicro micro completion s = .next t.recordRet := by
  simp [runMicro, h]

/-- The outcome of an executed tick whose micro-step is the last of its sub-machine. -/
theorem runMicro_done {micro : State → Micro} {completion : State → Outcome} {s t u : State}
    (h : micro { s with lastUs := s.nowUs } = (t, true)) (hc : completion t = .next u) :
    runMicro micro completion s = .next u.recordRet := by
  simp [runMicro, h, hc]

/-- If an executed tick answers a next state, that is the micro-step's, or its completion action's, with `ret` recorded. -/
theorem runMicro_next {micro : State → Micro} {completion : State → Outcome} {s t : State}
    (h : runMicro micro completion s = .next t) :
    ∃ u, t = u.recordRet ∧
      ((micro { s with lastUs := s.nowUs }).2 = false ∧ u = (micro { s with lastUs := s.nowUs }).1 ∨
       (micro { s with lastUs := s.nowUs }).2 = true ∧ completion (micro { s with lastUs := s.nowUs }).1 = .next u) := by
  simp only [runMicro] at h
  cases hd : (micro { s with lastUs := s.nowUs }).2
  · simp [hd] at h
    exact ⟨_, h.symm, .inl ⟨rfl, rfl⟩⟩
  · simp only [hd, if_true] at h
    cases hc : completion (micro { s with lastUs := s.nowUs }).1 with
    | next u => simp [hc] at h; exact ⟨u, h.symm, .inr ⟨rfl, rfl⟩⟩
    | fault f => simp [hc] at h
    | refused r => simp [hc] at h

/-- Every micro-step writes one pin and appends its event, and otherwise touches only STEP, BYTE and BITCNT. -/
theorem selectMicro_frame {k : Kind} {n : BitVec 3} {micro : State → Micro} (h : selectMicro k n = some micro) (s : State) :
    ∃ p v, (micro s).1 = { s.drive p v with
      stepCnt := (micro s).1.stepCnt, byte := (micro s).1.byte, bitcnt := (micro s).1.bitcnt } := by
  unfold selectMicro at h
  split at h <;> cases h
  · exact ⟨.clk, .low, rfl⟩
  · exact ⟨.dio, levelOfBit (s.byte.getLsbD 0), rfl⟩
  · exact ⟨.clk, .released, rfl⟩
  · exact ⟨.clk, .low, rfl⟩
  · exact ⟨.dio, .released, rfl⟩
  · exact ⟨.clk, .released, rfl⟩
  · exact ⟨.clk, .low, rfl⟩
  · exact ⟨.clk, .released, rfl⟩
  · exact ⟨.dio, .released, rfl⟩
  · exact ⟨.dio, .low, rfl⟩
  · exact ⟨.clk, .low, rfl⟩
  · exact ⟨.dio, .low, rfl⟩
  · exact ⟨.clk, .released, rfl⟩
  · exact ⟨.dio, .released, rfl⟩

/-- A completion action writes PHASE, BYTE and IDX only. -/
theorem complete_frame {s t : State} (h : complete s = .next t) :
    t = { s with phase := t.phase, byte := t.byte, idx := t.idx } := by
  unfold complete at h
  split at h
  · cases h; rfl
  · cases h; rfl
  · cases h; rfl
  · unfold completeP3 at h
    split at h <;> cases h
    rfl
  · unfold completeP4 at h
    split at h
    · split at h <;> cases h
      rfl
    · cases h; rfl
  · cases h; rfl
  · cases h; rfl
  · cases h; rfl
  · cases h; rfl
  · cases h; rfl

/-- `complete` is the completion action of the phase the state is in. -/
theorem complete_eq {s : State} :
    (s.phase = .p0 → complete s = completeP0 s) ∧ (s.phase = .p1 → complete s = completeP1 s) ∧
    (s.phase = .p2 → complete s = completeP2 s) ∧ (s.phase = .p3 → complete s = completeP3 s) ∧
    (s.phase = .p4 → complete s = completeP4 s) ∧ (s.phase = .p5 → complete s = completeP5 s) ∧
    (s.phase = .p6 → complete s = completeP6 s) ∧ (s.phase = .p7 → complete s = completeP7 s) ∧
    (s.phase = .p8 → complete s = completeP8 s) := by
  refine ⟨?_, ?_, ?_, ?_, ?_, ?_, ?_, ?_, ?_⟩ <;> intro h <;> simp [complete, h]

/-! ### TICK -/

/-- TICK while idle. -/
theorem execTick_idle {s : State} (h : s.phase = .idle) : execTick s = .next { s with tickRet := some true } := by
  simp [execTick, tickWith, executes, quietTick, State.recordRet, h]

/-- TICK that executes. -/
theorem execTick_executing {s : State} (h : Executing s) : execTick s = runSelected complete s := by
  simp [execTick, tickWith, (executes_iff s).mpr h]

/-- TICK that does not execute. -/
theorem execTick_quiet {s : State} (h : ¬ Executing s) : execTick s = .next (quietTick Config.timing s) := by
  simp [execTick, tickWith, (executes_eq_false_iff s).mpr h]

/-! ### The views of the executed tick -/

theorem phaseWith_enabled {s : State} {p : Phase} {c : State → Outcome} (h : Executing s) (hp : s.phase = p) :
    phaseWith Config.timing p c s = runSelected c s := by
  simp [phaseWith, (executes_iff s).mpr h, hp]

theorem phaseWith_disabled {s : State} {p : Phase} {c : State → Outcome} (h : ¬ (Executing s ∧ s.phase = p)) :
    phaseWith Config.timing p c s = .next s := by
  have : (executes Config.timing s && s.phase == p) = false := by
    rw [Bool.eq_false_iff]
    intro hc
    simp only [Bool.and_eq_true, beq_iff_eq, executes_iff] at hc
    exact h hc
  simp [phaseWith, this]

theorem ustepWith_enabled {s : State} {k : Kind} {n : BitVec 3} {micro : State → Micro} (h : Executing s)
    (hk : kindOf s.phase = k) (hn : s.stepCnt = n) :
    ustepWith Config.timing k n micro s = runMicro micro complete s := by
  simp [ustepWith, (executes_iff s).mpr h, hk, hn]

theorem ustepWith_disabled {s : State} {k : Kind} {n : BitVec 3} {micro : State → Micro}
    (h : ¬ (Executing s ∧ kindOf s.phase = k ∧ s.stepCnt = n)) : ustepWith Config.timing k n micro s = .next s := by
  have : (executes Config.timing s && kindOf s.phase == k && s.stepCnt == n) = false := by
    rw [Bool.eq_false_iff]
    intro hc
    simp only [Bool.and_eq_true, beq_iff_eq, executes_iff, and_assoc] at hc
    exact h hc
  simp [ustepWith, this]

theorem wirebyteWith_enabled {s : State} {pl : Place} {b : Byte} (h : Executing s)
    (hp : s.phase = phaseOfPlace pl) (hb : s.byte = b >>> s.bitcnt.toNat) :
    wirebyteWith Config.timing pl b s = runSelected complete s := by
  simp [wirebyteWith, (executes_iff s).mpr h, emitting, hp, hb]

theorem wirebyteWith_disabled {s : State} {pl : Place} {b : Byte}
    (h : ¬ (Executing s ∧ s.phase = phaseOfPlace pl ∧ s.byte = b >>> s.bitcnt.toNat)) :
    wirebyteWith Config.timing pl b s = .next s := by
  have : (executes Config.timing s && emitting pl b s) = false := by
    rw [Bool.eq_false_iff]
    intro hc
    simp only [Bool.and_eq_true, emitting, beq_iff_eq, executes_iff] at hc
    exact h hc
  simp [wirebyteWith, this]

/-! ### The step -/

/-- With no move to come, a step only ends the outputs of the step before. -/
theorem step_nil {s : State} (h : s.moves = []) : step s = .next (s.consume []) := by
  simp [step, h, exec, execNop]

/-- A step whose move brings an operation executes it. -/
theorem step_run {s : State} {m : Move} {rest : List Move} {i : Instr} (h : s.moves = m :: rest)
    (hf : fetch m (s.consume rest) = .run i) : step s = exec i (s.consume rest) := by
  simp [step, h, hf]

/-- A step whose move is the environment's. -/
theorem step_env {s t : State} {m : Move} {rest : List Move} (h : s.moves = m :: rest)
    (hf : fetch m (s.consume rest) = .env t) : step s = .next t := by
  simp [step, h, hf]

/-- A step whose move is none the spec has. -/
theorem step_stop {s : State} {m : Move} {rest : List Move} {r : Refusal} (h : s.moves = m :: rest)
    (hf : fetch m (s.consume rest) = .stop r) : step s = .refused r := by
  simp [step, h, hf]

/-- If a step answers a next state, no move was to come, or the move brought an operation that answered it, or it was the
environment's. -/
theorem step_next {s t : State} (h : step s = .next t) :
    (s.moves = [] ∧ t = s.consume []) ∨
    (∃ m rest, s.moves = m :: rest ∧
      ((∃ i, fetch m (s.consume rest) = .run i ∧ exec i (s.consume rest) = .next t) ∨
       fetch m (s.consume rest) = .env t)) := by
  cases hm : s.moves with
  | nil => rw [step_nil hm] at h; cases h; exact .inl ⟨rfl, rfl⟩
  | cons m rest =>
    refine .inr ⟨m, rest, rfl, ?_⟩
    cases hf : fetch m (s.consume rest) with
    | run i => exact .inl ⟨i, rfl, by rw [← step_run hm hf]; exact h⟩
    | env u => rw [step_env hm hf] at h; cases h; exact .inr rfl
    | stop r => rw [step_stop hm hf] at h; cases h

end Sys2Proof.Machine
end

