-- ==== Sys2Proof/Laws/Exec.lean ====
section
/-! SUPPORT. What an operation that answers a next state can have done, said once for all forty of them (`exec_did`), and what
an executed tick did (`runSelected_next`, `complete_eq_afterCompletion`). -/

namespace Sys2Proof.Machine

open Sys2Proof.Safety

/-- A completion action is the table's (R77), for every length CORE can hold. -/
theorem complete_eq_afterCompletion {s : State} (h : s.len.toNat ≤ 4) : complete s = .next (afterCompletion s) := by
  unfold complete afterCompletion
  cases hp : s.phase <;> simp only []
  · rfl
  · rfl
  · rfl
  · simp [completeP3, memRead]
  · simp only [completeP4]
    split
    · have : s.idx.toNat + 1 < 4 := by omega
      simp [memRead, this, hp]
    · rfl
  · rfl
  · rfl
  · rfl
  · rfl

/-- The micro-step of a phase's entry is the executed tick's own. -/
theorem phaseWith_next {s t : State} {p : Phase} {c : State → Outcome}
    (hc : ∀ u : State, u.phase = p → complete u = c u) (h : phaseWith Config.timing p c s = .next t) :
    t = s ∨ (Executing s ∧ s.phase = p ∧ runSelected complete s = .next t) := by
  by_cases he : Executing s ∧ s.phase = p
  · rw [phaseWith_enabled he.1 he.2] at h
    refine .inr ⟨he.1, he.2, ?_⟩
    rw [← h]
    unfold runSelected
    split
    · next micro hm =>
      obtain ⟨q, v, hf⟩ := selectMicro_frame hm { s with lastUs := s.nowUs }
      have : (micro { s with lastUs := s.nowUs }).1.phase = p := by rw [hf]; simp [he.2]
      simp [runMicro, hc _ this]
    · rfl
  · rw [phaseWith_disabled he] at h
    cases h
    exact .inl rfl

/-- A micro-step that is performed is the executed tick's own. -/
theorem ustepWith_next {s t : State} {k : Kind} {n : BitVec 3} {micro : State → Micro}
    (hm : selectMicro k n = some micro) (h : ustepWith Config.timing k n micro s = .next t) :
    t = s ∨ (Executing s ∧ s.ustepCode = ustepWord k n ∧ runSelected complete s = .next t) := by
  by_cases he : Executing s ∧ kindOf s.phase = k ∧ s.stepCnt = n
  · rw [ustepWith_enabled he.1 he.2.1 he.2.2] at h
    refine .inr ⟨he.1, by simp [State.ustepCode, he.2.1, he.2.2], ?_⟩
    simp [runSelected, he.2.1, he.2.2, hm, h]
  · rw [ustepWith_disabled he] at h
    cases h
    exact .inl rfl

/-- A wire byte that is emitted is the executed tick's own. -/
theorem wirebyteWith_next {s t : State} {pl : Place} {b : Byte} (h : wirebyteWith Config.timing pl b s = .next t) :
    t = s ∨
      (Executing s ∧ s.phase = phaseOfPlace pl ∧ s.byte = b >>> s.bitcnt.toNat ∧ runSelected complete s = .next t) := by
  by_cases he : Executing s ∧ s.phase = phaseOfPlace pl ∧ s.byte = b >>> s.bitcnt.toNat
  · rw [wirebyteWith_enabled he.1 he.2.1 he.2.2] at h
    exact .inr ⟨he.1, he.2.1, he.2.2, h⟩
  · rw [wirebyteWith_disabled he] at h
    cases h
    exact .inl rfl

/-- Everything an operation that answers a next state can have done. -/
inductive Did (i : Instr) (s : State) : State → Prop where
  | nothing : Did i s s
  | tickQuiet (hi : i = .tick) (h : ¬ Executing s) : Did i s (quietTick Config.timing s)
  | ticked {t : State} (h : ExecutesTick i s) (ht : runSelected complete s = .next t) : Did i s t
  | armed {len pos : BitVec 8} {seg : BitVec 32} (hi : i = .arm len pos seg) (h : s.pre = .ready) :
      Did i s (s.armLoad len pos seg)
  | cleared (hi : i = .clear) (h : s.pre = .ready) : Did i s (s.armLoad 4 0 0)
  | brightSet {on : BitVec 1} {level : BitVec 3} (hi : i = .setbr on level) (h : s.pre = .ready) :
      Did i s { s with bright := brightOf on level }
  | idleRead (hi : i = .isidle) : Did i s { s with idleOut := some (idleOutput Config.timing s) }
  | relc (hi : i = .armRelc) (h : s.pre = .relc) : Did i s { s.drive .clk .released with pre := .reld }
  | reld (hi : i = .armReld) (h : s.pre = .reld) :
      Did i s { s.drive .dio .released with dlyUs := s.nowUs, pre := .strt }
  | strt (hi : i = .armStrt) (h : s.pre = .strt) (hold : Config.timing.settleUs ≤ s.nowUs - s.dlyUs) :
      Did i s { s.drive .dio .low with dlyUs := s.nowUs, pre := .done }
  | done (hi : i = .armDone) (h : s.pre = .done) (hold : Config.timing.startUs ≤ s.nowUs - s.dlyUs) :
      Did i s { s with pre := .ready }
  | idleEntry (hi : i = .idle) (h : s.phase = .idle) : Did i s s.recordRet

/-- What an operation did, from its answering a next state. -/
theorem exec_did {i : Instr} {s t : State} (h : exec i s = .next t) : Did i s t := by
  have fromPhase : ∀ {p : Phase}, decodePhase p.code = .ok i →
      (t = s ∨ (Executing s ∧ s.phase = p ∧ runSelected complete s = .next t)) → Did i s t := by
    rintro p hd (rfl | ⟨he, rfl, ht⟩)
    · exact .nothing
    · exact .ticked ⟨he, .inr (.inl hd)⟩ ht
  have fromStep : ∀ {k : Kind} {n : BitVec 3}, decodeUstep (ustepWord k n) = .ok i →
      (t = s ∨ (Executing s ∧ s.ustepCode = ustepWord k n ∧ runSelected complete s = .next t)) → Did i s t := by
    rintro k n hd (rfl | ⟨he, hc, ht⟩)
    · exact .nothing
    · exact .ticked ⟨he, .inr (.inr (.inl (hc ▸ hd)))⟩ ht
  have fromByte : ∀ {pl : Place} {b : Byte}, decodeWirebyte pl b = .ok i →
      (t = s ∨ (Executing s ∧ s.phase = phaseOfPlace pl ∧ s.byte = b >>> s.bitcnt.toNat ∧
        runSelected complete s = .next t)) → Did i s t := by
    rintro pl b hd (rfl | ⟨he, hp, hb, ht⟩)
    · exact .nothing
    · exact .ticked ⟨he, .inr (.inr (.inr ⟨pl, b, hp, hb, hd⟩))⟩ ht
  have enabled : ∀ {c : Bool} {u : State}, whenEnabled c (.next u) s = .next t → (t = s ∨ (c = true ∧ t = u)) := by
    intro c u h
    rcases whenEnabled_next h with ⟨hc, h⟩ | ⟨hc, h⟩
    · cases h; exact .inr ⟨hc, rfl⟩
    · exact .inl h
  cases i
  case nop => cases h; exact .nothing
  case tick =>
    by_cases he : Executing s
    · exact .ticked ⟨he, .inl rfl⟩ (by rw [← execTick_executing he]; exact h)
    · have := execTick_quiet he
      simp only [exec] at h
      rw [this] at h
      cases h
      exact .tickQuiet rfl he
  case arm len pos seg =>
    rcases enabled h with rfl | ⟨hc, rfl⟩
    · exact .nothing
    · exact .armed rfl ((cmdReady_iff s).mp hc)
  case clear =>
    rcases enabled h with rfl | ⟨hc, rfl⟩
    · exact .nothing
    · exact .cleared rfl ((cmdReady_iff s).mp hc)
  case setbr on level =>
    rcases enabled h with rfl | ⟨hc, rfl⟩
    · exact .nothing
    · exact .brightSet rfl ((cmdReady_iff s).mp hc)
  case isidle => cases h; exact .idleRead rfl
  case rsvd6 => cases h; exact .nothing
  case rsvd7 => cases h; exact .nothing
  case armRelc =>
    rcases enabled h with rfl | ⟨hc, rfl⟩
    · exact .nothing
    · exact .relc rfl (by simpa using hc)
  case armReld =>
    rcases enabled h with rfl | ⟨hc, rfl⟩
    · exact .nothing
    · exact .reld rfl (by simpa using hc)
  case armStrt =>
    rcases enabled h with rfl | ⟨hc, rfl⟩
    · exact .nothing
    · simp only [Bool.and_eq_true, beq_iff_eq, holdElapsed_iff] at hc
      exact .strt rfl hc.1 hc.2
  case armDone =>
    rcases enabled h with rfl | ⟨hc, rfl⟩
    · exact .nothing
    · simp only [Bool.and_eq_true, beq_iff_eq, holdElapsed_iff] at hc
      exact .done rfl hc.1 hc.2
  case idle =>
    rcases enabled h with rfl | ⟨hc, rfl⟩
    · exact .nothing
    · exact .idleEntry rfl (by simpa using hc)
  case p0Wrmode => exact fromPhase (by decide) (phaseWith_next (fun u hu => by simp [complete, hu]) h)
  case p1Stop => exact fromPhase (by decide) (phaseWith_next (fun u hu => by simp [complete, hu]) h)
  case p2Start => exact fromPhase (by decide) (phaseWith_next (fun u hu => by simp [complete, hu]) h)
  case p3Wraddr => exact fromPhase (by decide) (phaseWith_next (fun u hu => by simp [complete, hu]) h)
  case p4Wrdata => exact fromPhase (by decide) (phaseWith_next (fun u hu => by simp [complete, hu]) h)
  case p5Stop => exact fromPhase (by decide) (phaseWith_next (fun u hu => by simp [complete, hu]) h)
  case p6Start => exact fromPhase (by decide) (phaseWith_next (fun u hu => by simp [complete, hu]) h)
  case p7Wrctrl => exact fromPhase (by decide) (phaseWith_next (fun u hu => by simp [complete, hu]) h)
  case p8Stop => exact fromPhase (by decide) (phaseWith_next (fun u hu => by simp [complete, hu]) h)
  case cmdMode => exact fromByte (by decide) (wirebyteWith_next (pl := .mode) h)
  case cmdAddr pos => exact fromByte (decodeWirebyte_addr pos) (wirebyteWith_next (pl := .addr) h)
  case cmdCtrl on level => exact fromByte (decodeWirebyte_ctrl on level) (wirebyteWith_next (pl := .ctrl) h)
  case data d => exact fromByte rfl (wirebyteWith_next (pl := .data) h)
  case b0Clklo => exact fromStep (by decide) (ustepWith_next (k := .byte) (n := 0) (micro := microB0) rfl h)
  case b1Dbit => exact fromStep (by decide) (ustepWith_next (k := .byte) (n := 1) (micro := microB1) rfl h)
  case b2Clkhi => exact fromStep (by decide) (ustepWith_next (k := .byte) (n := 2) (micro := microB2) rfl h)
  case b3Acklo => exact fromStep (by decide) (ustepWith_next (k := .byte) (n := 3) (micro := microB3) rfl h)
  case b4Ackrel => exact fromStep (by decide) (ustepWith_next (k := .byte) (n := 4) (micro := microB4) rfl h)
  case b5Ackhi => exact fromStep (by decide) (ustepWith_next (k := .byte) (n := 5) (micro := microB5) rfl h)
  case b6Ackend => exact fromStep (by decide) (ustepWith_next (k := .byte) (n := 6) (micro := microB6) rfl h)
  case s0Clkhi => exact fromStep (by decide) (ustepWith_next (k := .start) (n := 0) (micro := microS0) rfl h)
  case s1Dhi => exact fromStep (by decide) (ustepWith_next (k := .start) (n := 1) (micro := microS1) rfl h)
  case s2Dlo => exact fromStep (by decide) (ustepWith_next (k := .start) (n := 2) (micro := microS2) rfl h)
  case t0Clklo => exact fromStep (by decide) (ustepWith_next (k := .stop) (n := 0) (micro := microT0) rfl h)
  case t1Dlo => exact fromStep (by decide) (ustepWith_next (k := .stop) (n := 1) (micro := microT1) rfl h)
  case t2Clkhi => exact fromStep (by decide) (ustepWith_next (k := .stop) (n := 2) (micro := microT2) rfl h)
  case t3Dhi => exact fromStep (by decide) (ustepWith_next (k := .stop) (n := 3) (micro := microT3) rfl h)

/-- An executed tick that answers a next state performed the selected micro-step, and the completion action if it was done. -/
theorem runSelected_next {s t : State} (h : runSelected complete s = .next t) :
    ∃ micro u, selectMicro (kindOf s.phase) s.stepCnt = some micro ∧ t = u.recordRet ∧
      ((micro { s with lastUs := s.nowUs }).2 = false ∧ u = (micro { s with lastUs := s.nowUs }).1 ∨
       (micro { s with lastUs := s.nowUs }).2 = true ∧ complete (micro { s with lastUs := s.nowUs }).1 = .next u) := by
  unfold runSelected at h
  split at h
  · next micro hm =>
    obtain ⟨u, hu⟩ := runMicro_next h
    exact ⟨micro, u, hm, hu⟩
  · cases h

/-- Everything an executed tick can change: one pin and its event, LAST_US, STEP, BYTE, BITCNT, PHASE, IDX and `ret`. -/
theorem runSelected_frame {s t : State} (h : runSelected complete s = .next t) :
    ∃ p v, t = { s.drive p v with
      lastUs := s.nowUs, stepCnt := t.stepCnt, byte := t.byte, bitcnt := t.bitcnt, phase := t.phase, idx := t.idx,
      tickRet := t.tickRet } := by
  obtain ⟨micro, u, hm, rfl, hu⟩ := runSelected_next h
  obtain ⟨p, v, hf⟩ := selectMicro_frame hm { s with lastUs := s.nowUs }
  refine ⟨p, v, ?_⟩
  rcases hu with ⟨_, rfl⟩ | ⟨_, hc⟩
  · rw [hf]; cases p <;> rfl
  · rw [complete_frame hc, hf]; cases p <;> rfl

end Sys2Proof.Machine
end

