-- ==== Sys2Proof/Laws/PerInstr.lean ====
section
/-! SUPPORT. Facts about every operation as syntax, one lemma per constructor of Instr. -/

namespace Sys2Proof.Laws.EncodingWellFormed

/-- The code of an operation is one the spec gives a meaning (R73 to R82; none of the codes of R83). -/
def Statement (i : Instr) : Prop := (encode i).wellFormed = true

/-- Bits 52:48 of a HOSTOP word made by the encoder are zero, whatever its operands. -/
theorem hostopWord_wellFormed (op : BitVec 3) (operands : BitVec 48) :
    (Code.hostop (hostopWord op operands)).wellFormed = true := by
  simp [Code.wellFormed]

theorem nop : Statement .nop := by unfold Statement; decide
theorem tick : Statement .tick := by unfold Statement; decide
theorem arm (len pos : BitVec 8) (seg : BitVec 32) : Statement (.arm len pos seg) := hostopWord_wellFormed _ _
theorem clear : Statement .clear := by unfold Statement; decide
theorem setbr (on : BitVec 1) (level : BitVec 3) : Statement (.setbr on level) := hostopWord_wellFormed _ _
theorem isidle : Statement .isidle := by unfold Statement; decide
theorem rsvd6 : Statement .rsvd6 := by unfold Statement; decide
theorem rsvd7 : Statement .rsvd7 := by unfold Statement; decide
theorem armRelc : Statement .armRelc := by unfold Statement; decide
theorem armReld : Statement .armReld := by unfold Statement; decide
theorem armStrt : Statement .armStrt := by unfold Statement; decide
theorem armDone : Statement .armDone := by unfold Statement; decide
theorem p0Wrmode : Statement .p0Wrmode := by unfold Statement; decide
theorem p1Stop : Statement .p1Stop := by unfold Statement; decide
theorem p2Start : Statement .p2Start := by unfold Statement; decide
theorem p3Wraddr : Statement .p3Wraddr := by unfold Statement; decide
theorem p4Wrdata : Statement .p4Wrdata := by unfold Statement; decide
theorem p5Stop : Statement .p5Stop := by unfold Statement; decide
theorem p6Start : Statement .p6Start := by unfold Statement; decide
theorem p7Wrctrl : Statement .p7Wrctrl := by unfold Statement; decide
theorem p8Stop : Statement .p8Stop := by unfold Statement; decide
theorem idle : Statement .idle := by unfold Statement; decide
theorem b0Clklo : Statement .b0Clklo := by unfold Statement; decide
theorem b1Dbit : Statement .b1Dbit := by unfold Statement; decide
theorem b2Clkhi : Statement .b2Clkhi := by unfold Statement; decide
theorem b3Acklo : Statement .b3Acklo := by unfold Statement; decide
theorem b4Ackrel : Statement .b4Ackrel := by unfold Statement; decide
theorem b5Ackhi : Statement .b5Ackhi := by unfold Statement; decide
theorem b6Ackend : Statement .b6Ackend := by unfold Statement; decide
theorem s0Clkhi : Statement .s0Clkhi := by unfold Statement; decide
theorem s1Dhi : Statement .s1Dhi := by unfold Statement; decide
theorem s2Dlo : Statement .s2Dlo := by unfold Statement; decide
theorem t0Clklo : Statement .t0Clklo := by unfold Statement; decide
theorem t1Dlo : Statement .t1Dlo := by unfold Statement; decide
theorem t2Clkhi : Statement .t2Clkhi := by unfold Statement; decide
theorem t3Dhi : Statement .t3Dhi := by unfold Statement; decide
theorem cmdMode : Statement .cmdMode := by unfold Statement; decide
theorem cmdAddr (pos : BitVec 2) : Statement (.cmdAddr pos) := by revert pos; unfold Statement; decide
theorem cmdCtrl (on : BitVec 1) (level : BitVec 3) : Statement (.cmdCtrl on level) := by
  revert on level; unfold Statement; decide
theorem data (d : BitVec 8) : Statement (.data d) := rfl

end Sys2Proof.Laws.EncodingWellFormed
end

