-- ==== Sys2Proof/Tests/Slice0.lean ====
section
/-! SUPPORT. Tests of the model against spec/95_test_vectors.md and the encoding tables, the smoke test of WellFormed, and a
witness for the hypotheses of every obligation. Expected values are the spec's. -/

namespace Sys2Proof.Tests

open Sys2Proof.Machine Sys2Proof.Safety

/-! ### WellFormed: an ill-formed code for each check (R83) -/

theorem test_wellFormed_refuses_hostop : (Code.hostop 0x01000000000000).wellFormed = false := by decide
theorem test_wellFormed_refuses_armseq :
    (Code.armseq 0b000).wellFormed = false ∧ (Code.armseq 0b101).wellFormed = false := by decide
theorem test_wellFormed_refuses_phase :
    (Code.phase 0b1001).wellFormed = false ∧ (Code.phase 0b1110).wellFormed = false := by decide
theorem test_wellFormed_refuses_ustep :
    (Code.ustep 0b00111).wellFormed = false ∧ (Code.ustep 0b01011).wellFormed = false ∧
    (Code.ustep 0b10100).wellFormed = false ∧ (Code.ustep 0b11000).wellFormed = false := by decide
theorem test_wellFormed_refuses_wirebyte :
    (Code.wirebyte .mode 0x44).wellFormed = false ∧ (Code.wirebyte .addr 0xC4).wellFormed = false ∧
    (Code.wirebyte .ctrl 0x90).wellFormed = false := by decide
theorem test_wellFormed_accepts :
    (Code.hostop 0xFEFFFFFFFFFFFF).wellFormed = false ∧ (Code.hostop 0xE0FFFFFFFFFFFF).wellFormed = true ∧
    (Code.armseq 0b100).wellFormed = true ∧ (Code.phase 0b1111).wellFormed = true ∧
    (Code.ustep 0b10011).wellFormed = true ∧ (Code.wirebyte .data 0xFF).wellFormed = true := by decide

/-! ### Decoding: a word written out from the tables for every constructor -/

/-- R79: op in bits 55:53. -/
theorem test_decode_hostop :
    decode (.hostop 0x00000000000000) = .ok .nop ∧
    decode (.hostop 0x20000000000000) = .ok .tick ∧
    decode (.hostop 0x400304DDCCBBAA) = .ok (.arm 3 4 0xDDCCBBAA) ∧
    decode (.hostop 0x60000000000000) = .ok .clear ∧
    decode (.hostop 0x80000000000003) = .ok (.setbr 0 3) ∧
    decode (.hostop 0x80000000000008) = .ok (.setbr 1 0) ∧
    decode (.hostop 0xA0000000000000) = .ok .isidle ∧
    decode (.hostop 0xC0000000000000) = .ok .rsvd6 ∧
    decode (.hostop 0xE0000000000000) = .ok .rsvd7 := by decide

/-- R82. -/
theorem test_decode_armseq :
    decode (.armseq 0b001) = .ok .armRelc ∧ decode (.armseq 0b010) = .ok .armReld ∧
    decode (.armseq 0b011) = .ok .armStrt ∧ decode (.armseq 0b100) = .ok .armDone ∧
    decode (.armseq 0b000) = .error .preCode := by decide

/-- R77. -/
theorem test_decode_phase :
    decode (.phase 0b0000) = .ok .p0Wrmode ∧ decode (.phase 0b0001) = .ok .p1Stop ∧
    decode (.phase 0b0010) = .ok .p2Start ∧ decode (.phase 0b0011) = .ok .p3Wraddr ∧
    decode (.phase 0b0100) = .ok .p4Wrdata ∧ decode (.phase 0b0101) = .ok .p5Stop ∧
    decode (.phase 0b0110) = .ok .p6Start ∧ decode (.phase 0b0111) = .ok .p7Wrctrl ∧
    decode (.phase 0b1000) = .ok .p8Stop ∧ decode (.phase 0b1111) = .ok .idle ∧
    decode (.phase 0b1001) = .error .phaseCode := by decide

/-- R78: kind in bits 4:3, step in bits 2:0. -/
theorem test_decode_ustep :
    decode (.ustep 0b00000) = .ok .b0Clklo ∧ decode (.ustep 0b00001) = .ok .b1Dbit ∧
    decode (.ustep 0b00010) = .ok .b2Clkhi ∧ decode (.ustep 0b00011) = .ok .b3Acklo ∧
    decode (.ustep 0b00100) = .ok .b4Ackrel ∧ decode (.ustep 0b00101) = .ok .b5Ackhi ∧
    decode (.ustep 0b00110) = .ok .b6Ackend ∧ decode (.ustep 0b01000) = .ok .s0Clkhi ∧
    decode (.ustep 0b01001) = .ok .s1Dhi ∧ decode (.ustep 0b01010) = .ok .s2Dlo ∧
    decode (.ustep 0b10000) = .ok .t0Clklo ∧ decode (.ustep 0b10001) = .ok .t1Dlo ∧
    decode (.ustep 0b10010) = .ok .t2Clkhi ∧ decode (.ustep 0b10011) = .ok .t3Dhi ∧
    decode (.ustep 0b11000) = .error .ustepCode := by decide

/-- R73 to R76: the same bits are a command or data by their place. -/
theorem test_decode_wirebyte :
    decode (.wirebyte .mode 0x40) = .ok .cmdMode ∧ decode (.wirebyte .data 0x40) = .ok (.data 0x40) ∧
    decode (.wirebyte .addr 0xC3) = .ok (.cmdAddr 3) ∧ decode (.wirebyte .ctrl 0x83) = .ok (.cmdCtrl 0 3) ∧
    decode (.wirebyte .ctrl 0x88) = .ok (.cmdCtrl 1 0) ∧ decode (.wirebyte .mode 0x41) = .error .commandByte := by decide

/-- The table's own words, read by their widths. -/
theorem test_decodeTableWord :
    decodeTableWord 3 4 = some .armDone ∧ decodeTableWord 4 8 = some .p8Stop ∧ decodeTableWord 5 0x13 = some .t3Dhi ∧
    decodeTableWord 8 0x8A = some (.cmdCtrl 1 2) ∧ decodeTableWord 56 0xA0000000000000 = some .isidle ∧
    decodeTableWord 56 0x1F000000000000 = none := by decide

/-! ### Placing a table word where the machine fetches -/

/-- The outcome is a next state. -/
def isNext : Outcome → Bool
  | .next _ => true
  | _ => false

theorem test_placed_words_run :
    isNext (step (State.reset.withFetchWord 56 0x40040344332211)) = true ∧
    isNext (step (State.reset.withFetchWord 3 3)) = true ∧ isNext (step (State.reset.withFetchWord 4 4)) = true ∧
    isNext (step (State.reset.withFetchWord 5 6)) = true ∧ isNext (step (State.reset.withFetchWord 8 0xC2)) = true :=
  ⟨rfl, rfl, rfl, rfl, rfl⟩

/-! ### One step, on small states -/

/-- The parameters of 95_test_vectors. -/
def T1 : Timing := ⟨100, 500, 50, 5⟩

/-- A state ready for an executed tick, whatever the timing parameters (`executing_of_longest`): time 0, LEN 2, SEG 3F 06. -/
def active (ph : Phase) (st : BitVec 3) (bc : BitVec 4) (byte : Byte) : State :=
  { State.reset with
    phase := ph, stepCnt := st, bitcnt := bc, byte := byte, len := 2, seg := [(0, 0x3F), (1, 0x06)], lastUs := 1 }

theorem active_executing {ph : Phase} {st : BitVec 3} {bc : BitVec 4} {byte : Byte} (h : ph ≠ .idle) :
    Executing (active ph st bc byte) := executing_of_longest h rfl rfl

/-- The state of 95_test_vectors 2.4 at given counters. -/
def timed (nowUs nowMs lastUs startMs : Time) : State :=
  { active .p0 0 0 0x40 with nowUs := nowUs, nowMs := nowMs, lastUs := lastUs, startMs := startMs }

/-- What the tables of 95_test_vectors show after a step: PHASE, STEP, BITCNT, BYTE, IDX, the new events, `ret`. -/
def view : Outcome → Option (Phase × BitVec 3 × BitVec 4 × Byte × BitVec 3 × List PinEvent × Option Bool)
  | .next t => some (t.phase, t.stepCnt, t.bitcnt, t.byte, t.idx, t.wire, t.tickRet)
  | _ => none

/-- 2.4: elapsed 99 is too early, elapsed 100 executes B0. -/
theorem test_tick_interval :
    view (tickWith T1 (timed 1099 1 1000 1)) = some (.p0, 0, 0, 0x40, 0, [], some false) ∧
    view (tickWith T1 (timed 1100 1 1000 1)) = some (.p0, 1, 0, 0x40, 0, [⟨.clk, .low⟩], some false) ∧
    view (tickWith T1 (timed 0x53 1 0xFFFFFFF0 1)) = some (.p0, 0, 0, 0x40, 0, [], some false) ∧
    view (tickWith T1 (timed 0x54 1 0xFFFFFFF0 1)) = some (.p0, 1, 0, 0x40, 0, [⟨.clk, .low⟩], some false) :=
  ⟨rfl, rfl, rfl, rfl⟩

/-- 2.4: elapsed 500 ms executes; 501 ms is the watchdog, tested before the interval. -/
theorem test_tick_watchdog :
    view (tickWith T1 (timed 501999 501 1000 1)) = some (.p0, 1, 0, 0x40, 0, [⟨.clk, .low⟩], some false) ∧
    view (tickWith T1 (timed 1050 502 1000 1)) = some (.idle, 0, 0, 0x40, 0, [], some true) ∧
    view (tickWith T1 (timed 1100 0xF5 1000 0xFFFFFF00)) = some (.idle, 0, 0, 0x40, 0, [], some true) :=
  ⟨rfl, rfl, rfl⟩

/-- The registers ARM.LOAD writes, of 2.1. -/
def armView : Outcome → Option (Memory × BitVec 3 × BitVec 2 × Phase × Byte × Pre)
  | .next t => some (t.seg, t.len, t.pos, t.phase, t.byte, t.pre)
  | _ => none

/-- 2.1: position masked, length truncated. -/
theorem test_arm_clamps : armView (exec (.arm 200 255 0x44332211) State.reset) =
    some ([(0, 0x11), (1, 0x22), (2, 0x33), (3, 0x44)], 4, 3, .p0, 0x40, .relc) := rfl
/-- 2.1: length 0 is stored as 1 and the rest is zero. -/
theorem test_arm_zero_fills : armView (exec (.arm 0 5 0xDDCCBBAA) (active .p7 3 8 1)) =
    some ([(0, 0xAA)], 1, 1, .p0, 0x40, .relc) := rfl
theorem test_clear : armView (exec .clear (active .idle 0 0 0)) = some ([], 4, 0, .p0, 0x40, .relc) := rfl
/-- 2.2. -/
theorem test_setbr :
    exec (.setbr 0 3) State.reset = .next { State.reset with bright := 0x3 } ∧
    exec (.setbr 1 2) State.reset = .next { State.reset with bright := 0xA } := ⟨rfl, rfl⟩
/-- 2.5. -/
theorem test_isidle :
    isidleWith T1 (timed 0 501 0 1) = .next { timed 0 501 0 1 with idleOut := some false } ∧
    isidleWith T1 (timed 0 502 0 1) = .next { timed 0 502 0 1 with idleOut := some true } := ⟨rfl, rfl⟩
/-- R83, R110: TICK's code on the command port does nothing. -/
theorem test_command_port_tick : decodeCommand 1 0 0 0 0 0 = .nop ∧ decodeCommand 4 0 0 0 1 5 = .setbr 1 5 := by decide

/-- 2.3: the arming's two holds, one microsecond before and at their ends. -/
def arming (p : Pre) (now dly : Time) : State := { State.reset with pre := p, nowUs := now, dlyUs := dly }

theorem test_arm_holds :
    armStrtWith T1 (arming .strt 1049 1000) = .next (arming .strt 1049 1000) ∧
    armStrtWith T1 (arming .strt 1050 1000) =
      .next { arming .done 1050 1050 with dio := .low, wire := [⟨.dio, .low⟩] } ∧
    armDoneWith T1 (arming .done 1054 1050) = .next (arming .done 1054 1050) ∧
    armDoneWith T1 (arming .done 1055 1050) = .next (arming .ready 1055 1050) := ⟨rfl, rfl, rfl, rfl⟩
theorem test_arm_releases :
    exec .armRelc (arming .relc 1000 0) = .next { arming .reld 1000 0 with wire := [⟨.clk, .released⟩] } ∧
    exec .armReld (arming .reld 1000 0) = .next { arming .strt 1000 1000 with wire := [⟨.dio, .released⟩] } := ⟨rfl, rfl⟩

/-! 2.6 to 2.8: each micro-step and each completion, through its own arm. -/

/-- Tick 36. -/
theorem test_b0Clklo : view (exec .b0Clklo (active .p3 0 0 0xC0)) = some (.p3, 1, 0, 0xC0, 0, [⟨.clk, .low⟩], some false) := by
  have h : Executing (active .p3 0 0 0xC0) := executing_of_longest (by decide) rfl rfl
  exact (congrArg view (ustepWith_enabled (k := .byte) (n := 0) (micro := microB0) h rfl rfl)).trans rfl

/-- Tick 20. -/
theorem test_b1Dbit : view (exec .b1Dbit (active .p0 1 6 0x01)) = some (.p0, 2, 6, 0x01, 0, [⟨.dio, .released⟩], some false) := by
  have h : Executing (active .p0 1 6 0x01) := executing_of_longest (by decide) rfl rfl
  exact (congrArg view (ustepWith_enabled (k := .byte) (n := 1) (micro := microB1) h rfl rfl)).trans rfl

/-- Tick 24: the count reaches 8 and STEP goes to 3. -/
theorem test_b2Clkhi : view (exec .b2Clkhi (active .p0 2 7 0x00)) = some (.p0, 3, 8, 0x00, 0, [⟨.clk, .released⟩], some false) := by
  have h : Executing (active .p0 2 7 0x00) := executing_of_longest (by decide) rfl rfl
  exact (congrArg view (ustepWith_enabled (k := .byte) (n := 2) (micro := microB2) h rfl rfl)).trans rfl

/-- Tick 25. -/
theorem test_b3Acklo : view (exec .b3Acklo (active .p0 3 8 0x00)) = some (.p0, 4, 8, 0x00, 0, [⟨.clk, .low⟩], some false) := by
  have h : Executing (active .p0 3 8 0x00) := executing_of_longest (by decide) rfl rfl
  exact (congrArg view (ustepWith_enabled (k := .byte) (n := 3) (micro := microB3) h rfl rfl)).trans rfl

/-- Tick 26. -/
theorem test_b4Ackrel : view (exec .b4Ackrel (active .p0 4 8 0x00)) = some (.p0, 5, 8, 0x00, 0, [⟨.dio, .released⟩], some false) := by
  have h : Executing (active .p0 4 8 0x00) := executing_of_longest (by decide) rfl rfl
  exact (congrArg view (ustepWith_enabled (k := .byte) (n := 4) (micro := microB4) h rfl rfl)).trans rfl

/-- Tick 27. -/
theorem test_b5Ackhi : view (exec .b5Ackhi (active .p0 5 8 0x00)) = some (.p0, 6, 8, 0x00, 0, [⟨.clk, .released⟩], some false) := by
  have h : Executing (active .p0 5 8 0x00) := executing_of_longest (by decide) rfl rfl
  exact (congrArg view (ustepWith_enabled (k := .byte) (n := 5) (micro := microB5) h rfl rfl)).trans rfl

/-- Tick 28: the completion action in the same step. -/
theorem test_b6Ackend : view (exec .b6Ackend (active .p0 6 8 0x00)) = some (.p1, 0, 0, 0xC0, 0, [⟨.clk, .low⟩], some false) := by
  have h : Executing (active .p0 6 8 0x00) := executing_of_longest (by decide) rfl rfl
  exact (congrArg view (ustepWith_enabled (k := .byte) (n := 6) (micro := microB6) h rfl rfl)).trans rfl

/-- Tick 33. -/
theorem test_s0Clkhi : view (exec .s0Clkhi (active .p2 0 0 0xC0)) = some (.p2, 1, 0, 0xC0, 0, [⟨.clk, .released⟩], some false) := by
  have h : Executing (active .p2 0 0 0xC0) := executing_of_longest (by decide) rfl rfl
  exact (congrArg view (ustepWith_enabled (k := .start) (n := 0) (micro := microS0) h rfl rfl)).trans rfl

/-- Tick 34. -/
theorem test_s1Dhi : view (exec .s1Dhi (active .p2 1 0 0xC0)) = some (.p2, 2, 0, 0xC0, 0, [⟨.dio, .released⟩], some false) := by
  have h : Executing (active .p2 1 0 0xC0) := executing_of_longest (by decide) rfl rfl
  exact (congrArg view (ustepWith_enabled (k := .start) (n := 1) (micro := microS1) h rfl rfl)).trans rfl

/-- Tick 35. -/
theorem test_s2Dlo : view (exec .s2Dlo (active .p2 2 0 0xC0)) = some (.p3, 0, 0, 0xC0, 0, [⟨.dio, .low⟩], some false) := by
  have h : Executing (active .p2 2 0 0xC0) := executing_of_longest (by decide) rfl rfl
  exact (congrArg view (ustepWith_enabled (k := .start) (n := 2) (micro := microS2) h rfl rfl)).trans rfl

/-- Tick 29. -/
theorem test_t0Clklo : view (exec .t0Clklo (active .p1 0 0 0xC0)) = some (.p1, 1, 0, 0xC0, 0, [⟨.clk, .low⟩], some false) := by
  have h : Executing (active .p1 0 0 0xC0) := executing_of_longest (by decide) rfl rfl
  exact (congrArg view (ustepWith_enabled (k := .stop) (n := 0) (micro := microT0) h rfl rfl)).trans rfl

/-- Tick 30. -/
theorem test_t1Dlo : view (exec .t1Dlo (active .p1 1 0 0xC0)) = some (.p1, 2, 0, 0xC0, 0, [⟨.dio, .low⟩], some false) := by
  have h : Executing (active .p1 1 0 0xC0) := executing_of_longest (by decide) rfl rfl
  exact (congrArg view (ustepWith_enabled (k := .stop) (n := 1) (micro := microT1) h rfl rfl)).trans rfl

/-- Tick 31. -/
theorem test_t2Clkhi : view (exec .t2Clkhi (active .p1 2 0 0xC0)) = some (.p1, 3, 0, 0xC0, 0, [⟨.clk, .released⟩], some false) := by
  have h : Executing (active .p1 2 0 0xC0) := executing_of_longest (by decide) rfl rfl
  exact (congrArg view (ustepWith_enabled (k := .stop) (n := 2) (micro := microT2) h rfl rfl)).trans rfl

/-- 2.4: T3 of phase 8 ends the transmission and returns 1. -/
theorem test_t3Dhi : view (exec .t3Dhi (active .p8 3 0 0x00)) = some (.idle, 0, 0, 0x00, 0, [⟨.dio, .released⟩], some true) := by
  have h : Executing (active .p8 3 0 0x00) := executing_of_longest (by decide) rfl rfl
  exact (congrArg view (ustepWith_enabled (k := .stop) (n := 3) (micro := microT3) h rfl rfl)).trans rfl

/-- 2.8: POS = 3. -/
theorem test_p0Wrmode : view (exec .p0Wrmode ({ active .p0 6 8 0 with pos := 3 })) = some (.p1, 0, 0, 0xC3, 0, [⟨.clk, .low⟩], some false) := by
  have h : Executing ({ active .p0 6 8 0 with pos := 3 }) := executing_of_longest (by decide) rfl rfl
  exact (congrArg view (phaseWith_enabled (p := .p0) (c := completeP0) h rfl)).trans rfl

/-- 2.8. -/
theorem test_p1Stop : view (exec .p1Stop (active .p1 3 0 0xC0)) = some (.p2, 0, 0, 0xC0, 0, [⟨.dio, .released⟩], some false) := by
  have h : Executing (active .p1 3 0 0xC0) := executing_of_longest (by decide) rfl rfl
  exact (congrArg view (phaseWith_enabled (p := .p1) (c := completeP1) h rfl)).trans rfl

/-- 2.8. -/
theorem test_p2Start : view (exec .p2Start (active .p2 2 0 0xC0)) = some (.p3, 0, 0, 0xC0, 0, [⟨.dio, .low⟩], some false) := by
  have h : Executing (active .p2 2 0 0xC0) := executing_of_longest (by decide) rfl rfl
  exact (congrArg view (phaseWith_enabled (p := .p2) (c := completeP2) h rfl)).trans rfl

/-- 2.8: SEG[0] = 0x3F. -/
theorem test_p3Wraddr : view (exec .p3Wraddr (active .p3 6 8 0)) = some (.p4, 0, 0, 0x3F, 0, [⟨.clk, .low⟩], some false) := by
  have h : Executing (active .p3 6 8 0) := executing_of_longest (by decide) rfl rfl
  exact (congrArg view (phaseWith_enabled (p := .p3) (c := completeP3) h rfl)).trans rfl

/-- 2.8: IDX = 0, LEN = 2, SEG[1] = 0x06. -/
theorem test_p4Wrdata : view (exec .p4Wrdata (active .p4 6 8 0)) = some (.p4, 0, 0, 0x06, 1, [⟨.clk, .low⟩], some false) := by
  have h : Executing (active .p4 6 8 0) := executing_of_longest (by decide) rfl rfl
  exact (congrArg view (phaseWith_enabled (p := .p4) (c := completeP4) h rfl)).trans rfl

/-- 2.8: IDX = 1, LEN = 2. -/
theorem test_p4Wrdata_last : view (exec .p4Wrdata ({ active .p4 6 8 0 with idx := 1 })) = some (.p5, 0, 0, 0x00, 2, [⟨.clk, .low⟩], some false) := by
  have h : Executing ({ active .p4 6 8 0 with idx := 1 }) := executing_of_longest (by decide) rfl rfl
  exact (congrArg view (phaseWith_enabled (p := .p4) (c := completeP4) h rfl)).trans rfl

/-- 2.8: BRIGHT = 0xF. -/
theorem test_p5Stop : view (exec .p5Stop (active .p5 3 0 0)) = some (.p6, 0, 0, 0x8F, 0, [⟨.dio, .released⟩], some false) := by
  have h : Executing (active .p5 3 0 0) := executing_of_longest (by decide) rfl rfl
  exact (congrArg view (phaseWith_enabled (p := .p5) (c := completeP5) h rfl)).trans rfl

/-- 2.8. -/
theorem test_p6Start : view (exec .p6Start (active .p6 2 0 0x8F)) = some (.p7, 0, 0, 0x8F, 0, [⟨.dio, .low⟩], some false) := by
  have h : Executing (active .p6 2 0 0x8F) := executing_of_longest (by decide) rfl rfl
  exact (congrArg view (phaseWith_enabled (p := .p6) (c := completeP6) h rfl)).trans rfl

/-- 2.8. -/
theorem test_p7Wrctrl : view (exec .p7Wrctrl (active .p7 6 8 0)) = some (.p8, 0, 0, 0x00, 0, [⟨.clk, .low⟩], some false) := by
  have h : Executing (active .p7 6 8 0) := executing_of_longest (by decide) rfl rfl
  exact (congrArg view (phaseWith_enabled (p := .p7) (c := completeP7) h rfl)).trans rfl

/-- 2.8. -/
theorem test_p8Stop : view (exec .p8Stop (active .p8 3 0 0)) = some (.idle, 0, 0, 0x00, 0, [⟨.dio, .released⟩], some true) := by
  have h : Executing (active .p8 3 0 0) := executing_of_longest (by decide) rfl rfl
  exact (congrArg view (phaseWith_enabled (p := .p8) (c := completeP8) h rfl)).trans rfl

/-- Bit 6 of 0x40 is the one that is set (V1). -/
theorem test_cmdMode : view (exec (.cmdMode) (active .p0 1 6 0x01)) = some (.p0, 2, 6, 0x01, 0, [⟨.dio, .released⟩], some false) := by
  have h : Executing (active .p0 1 6 0x01) := executing_of_longest (by decide) rfl rfl
  exact (congrArg view (wirebyteWith_enabled (pl := .mode) (b := 0x40) h rfl (by decide))).trans rfl

/-- Bit 1 of 0xC2 is set. -/
theorem test_cmdAddr : view (exec (.cmdAddr 2) (active .p3 1 1 0x61)) = some (.p3, 2, 1, 0x61, 0, [⟨.dio, .released⟩], some false) := by
  have h : Executing (active .p3 1 1 0x61) := executing_of_longest (by decide) rfl rfl
  exact (congrArg view (wirebyteWith_enabled (pl := .addr) (b := 0xC2) h rfl (by decide))).trans rfl

/-- Bit 3 of 0x8A, the on flag, is set. -/
theorem test_cmdCtrl : view (exec (.cmdCtrl 1 2) (active .p7 1 3 0x11)) = some (.p7, 2, 3, 0x11, 0, [⟨.dio, .released⟩], some false) := by
  have h : Executing (active .p7 1 3 0x11) := executing_of_longest (by decide) rfl rfl
  exact (congrArg view (wirebyteWith_enabled (pl := .ctrl) (b := 0x8A) h rfl (by decide))).trans rfl

/-- Bit 6 of 0x3F is clear (V1). -/
theorem test_data : view (exec (.data 0x3F) (active .p4 1 6 0x00)) = some (.p4, 2, 6, 0x00, 0, [⟨.dio, .low⟩], some false) := by
  have h : Executing (active .p4 1 6 0x00) := executing_of_longest (by decide) rfl rfl
  exact (congrArg view (wirebyteWith_enabled (pl := .data) (b := 0x3F) h rfl (by decide))).trans rfl

/-- A byte that is not the one being emitted: nothing happens. -/
theorem test_data_other (s : State) (h : s.phase = .p0) : exec (.data 0x3F) s = .next s :=
  wirebyteWith_disabled (pl := .data) (b := 0x3F) (fun hc => by simp [h, phaseOfPlace] at hc)
theorem test_idle : exec .idle State.reset = .next { State.reset with tickRet := some true } := rfl


/-! ### Witnesses: for every obligation with hypotheses, a state and operands that meet all of them -/

/-- A state with moves to come. -/
def sched (ms : List Move) : State := { State.reset with moves := ms }

/-- The largest 32-bit time is at or above every hold. -/
theorem hold_le_longest (hold : Time) : hold ≤ BitVec.ofNat 32 4294967295 := by
  rw [BitVec.le_def]
  have := hold.isLt
  simp
  omega

theorem witness_StepRunsTheDecodedOperation :
    (sched [.present 0xA0000000000000]).moves = .present 0xA0000000000000 :: [] ∧
    decodeHostop 0xA0000000000000 = .ok .isidle ∧
    ({ sched [.armseq] with pre := .done }).moves = .armseq :: [] ∧ decodeArmseq (Pre.code .done) = .ok .armDone ∧
    (sched [.armseq]).moves = .armseq :: [] ∧ (sched [.armseq]).pre = .ready ∧
    (sched [.command 4 0 0 0 1 7]).moves = .command 4 0 0 0 1 7 :: [] ∧ State.reset.moves = [] := by decide

theorem witness_PlacedTableWordRunsNext :
    decodeTableWord 56 0x40040344332211 = some (.arm 4 3 0x44332211) ∧ decodeTableWord 3 4 = some .armDone ∧
    decodeTableWord 4 15 = some .idle ∧ decodeTableWord 5 6 = some .b6Ackend ∧
    decodeTableWord 8 0xC3 = some (.cmdAddr 3) := by decide

theorem witness_TimeAndReceiverMovesChangeInputsOnly :
    (sched [.time 4294967296 1]).moves = .time 4294967296 1 :: [] ∧ (sched [.receiver true]).moves = .receiver true :: [] :=
  ⟨rfl, rfl⟩

theorem witness_OneCycleServesCommandThenArmseqThenTick :
    let p : Ports := ⟨false, true, 2, 0x063F, 2, 0, 0, 0, true⟩
    p.rst = false ∧ p.cmdValid = true ∧ p.cmdOp = 2 ∧ p.tickReq = true ∧ (sched (portMoves p ++ [])).pre = .ready ∧
    (sched (portMoves p ++ [])).moves = portMoves p ++ [] := by decide

theorem witness_RstGivesTheSpecifiedResetValues :
    ({ active .p4 3 8 1 with moves := [.rst] }).moves = .rst :: [] := rfl

theorem witness_ArmLoadsAndStartsTheArming :
    (arming .done 0 0).pre ≠ .ready ∧ (active .p4 3 8 1).pre = .ready ∧
    (active .p4 3 8 1).seg.Pairwise (fun x y => x.1 < y.1) ∧ Memory.wf (active .p4 3 8 1).seg := by decide

theorem witness_ClearArmsFourBlankBytes :
    (active .idle 0 0 0).pre = .ready ∧ (active .idle 0 0 0).seg.Pairwise (fun x y => x.1 < y.1) := by decide

theorem witness_SetbrWritesBrightOnly : State.reset.pre = .ready ∧ (arming .relc 0 0).pre ≠ .ready := by decide

theorem witness_NopAndReservedCodesDoNothing :
    ∀ op : BitVec 3, op = 0 ∨ op = 1 ∨ op = 5 ∨ op = 6 ∨ op = 7 →
      (sched [.command op 1 1 1 1 1]).moves = .command op 1 1 1 1 1 :: [] ∧ op.toNat ≠ 2 ∧ op.toNat ≠ 3 ∧ op.toNat ≠ 4 := by
  decide

theorem witness_IdleRisesWhenTheDeadlineHasPassed : State.reset.pre = .ready ∧ 4294967295 < 2 ^ 32 := by decide

theorem witness_ArmingSubStepsActAsTabled :
    (arming .relc 0 0).pre = .relc ∧ (arming .reld 0 0).pre = .reld ∧
    ((arming .strt 0 1).pre = .strt ∧ Config.timing.settleUs ≤ (arming .strt 0 1).nowUs - (arming .strt 0 1).dlyUs) ∧
    (arming .done 0 1).pre = .done ∧ Config.timing.startUs ≤ (arming .done 0 1).nowUs - (arming .done 0 1).dlyUs :=
  ⟨rfl, rfl, ⟨rfl, hold_le_longest _⟩, rfl, hold_le_longest _⟩

theorem witness_ArmingEndsInAStartFromAnyPins :
    let s := { active .p0 0 0 0x40 with
      pre := .relc
      moves := [Move.armseq, .armseq, .time 4294967295 0, .armseq, .time 4294967295 0, .armseq] ++ [] }
    s.pre = .relc ∧ Config.timing.settleUs ≤ BitVec.ofNat 32 4294967295 ∧
    Config.timing.startUs ≤ BitVec.ofNat 32 4294967295 ∧
    s.moves = [.armseq, .armseq, .time 4294967295 0, .armseq, .time 4294967295 0, .armseq] ++ [] :=
  ⟨rfl, hold_le_longest _, hold_le_longest _, rfl⟩

/-- 2.4: one state a case, at the boundaries of the comparisons. -/
theorem witness_TickTakesOneOfFourCases :
    State.reset.phase = .idle ∧
    ((timed 1050 502 1000 1).phase ≠ .idle ∧ T1.wdogMs < (timed 1050 502 1000 1).nowMs - (timed 1050 502 1000 1).startMs) ∧
    ((timed 1099 501 1000 1).phase ≠ .idle ∧
      (timed 1099 501 1000 1).nowMs - (timed 1099 501 1000 1).startMs ≤ T1.wdogMs ∧
      (timed 1099 501 1000 1).nowUs - (timed 1099 501 1000 1).lastUs < T1.minUs) ∧
    (timed 1100 501 1000 1).phase ≠ .idle ∧
      (timed 1100 501 1000 1).nowMs - (timed 1100 501 1000 1).startMs ≤ T1.wdogMs ∧
      T1.minUs ≤ (timed 1100 501 1000 1).nowUs - (timed 1100 501 1000 1).lastUs ∧
      (selectMicro (kindOf (timed 1100 501 1000 1).phase) (timed 1100 501 1000 1).stepCnt).isSome = true ∧
      (timed 1100 501 1000 1).len.toNat ≤ 4 := by decide

/-- A first, a middle and a last micro-step of each kind. -/
theorem witness_ExecutedTickPerformsOneMicroStep :
    ∀ x ∈ [(Phase.p0, (0 : BitVec 3), (7 : BitVec 4)), (.p4, 3, 8), (.p4, 6, 8), (.p2, 0, 0), (.p2, 2, 0), (.p8, 2, 0),
        (.p8, 3, 0)],
      Executing (active x.1 x.2.1 x.2.2 0x40) ∧ LegalTriple (kindOf x.1) x.2.1 x.2.2 ∧
      (active x.1 x.2.1 x.2.2 0x40).len.toNat ≤ 4 := by
  intro x hx
  have h : x.1 ≠ .idle ∧ LegalTriple (kindOf x.1) x.2.1 x.2.2 := by
    simp only [List.mem_cons, List.not_mem_nil, or_false] at hx
    rcases hx with rfl | rfl | rfl | rfl | rfl | rfl | rfl <;> simp [LegalTriple, kindOf]
  exact ⟨active_executing h.1, h.2, Nat.le.step (Nat.le.step (Nat.le_refl 2))⟩

theorem witness_ExecutedTickIsTheOperationEachLevelSelects :
    Executing (active .p0 0 0 0x40) ∧ decodeUstep (active .p0 0 0 0x40).ustepCode = .ok .b0Clklo ∧
    decodePhase (active .p0 0 0 0x40).phase.code = .ok .p0Wrmode ∧
    (active .p0 0 0 0x40).phase = phaseOfPlace .mode ∧ (active .p0 0 0 0x40).byte = (0x40 : Byte) >>> 0 ∧
    Executing (active .p3 2 7 0x01) ∧ (active .p3 2 7 0x01).phase = phaseOfPlace .addr ∧
    (active .p3 2 7 0x01).byte = (0xC3 : Byte) >>> (active .p3 2 7 0x01).bitcnt.toNat ∧
    decodeWirebyte .mode 0x40 = .ok .cmdMode ∧ decodeWirebyte .addr 0xC3 = .ok (.cmdAddr 3) :=
  ⟨active_executing (by decide), by decide, by decide, by decide, by decide, active_executing (by decide), by decide⟩

theorem witness_WatchdogEntryWritesPhaseOnly :
    (timed 1050 502 1000 1).phase ≠ .idle ∧
    T1.wdogMs < (timed 1050 502 1000 1).nowMs - (timed 1050 502 1000 1).startMs := by decide

theorem witness_NothingHappensWhereNotEnabled :
    decodePhase 3 = .ok .p3Wraddr ∧ Instr.p3Wraddr ≠ .idle ∧ (active .p0 0 0 0x40).phase.code ≠ 3 ∧
    decodeUstep 2 = .ok .b2Clkhi ∧ (active .p0 0 0 0x40).ustepCode ≠ 2 ∧
    decodeWirebyte .mode 0x40 = .ok .cmdMode ∧ (active .p0 0 0 0x41).byte ≠ (0x40 : Byte) >>> 0 ∧
    (active .p0 0 0 0x40).phase ≠ .idle := by decide

theorem witness_BitCellMicroSteps : ∀ n : BitVec 3,
    Executing (active .p0 n 7 0x40) ∧ kindOf (active .p0 n 7 0x40).phase = .byte ∧ (active .p0 n 7 0x40).stepCnt = n :=
  fun _ => ⟨active_executing (by decide), rfl, rfl⟩

theorem witness_AcknowledgmentSlotMicroSteps : ∀ n : BitVec 3,
    Executing (active .p7 n 8 0) ∧ kindOf (active .p7 n 8 0).phase = .byte ∧ (active .p7 n 8 0).stepCnt = n :=
  fun _ => ⟨active_executing (by decide), rfl, rfl⟩

theorem witness_LineConditionMicroSteps : ∀ n : BitVec 3,
    (Executing (active .p2 n 0 0) ∧ kindOf (active .p2 n 0 0).phase = .start ∧ (active .p2 n 0 0).stepCnt = n) ∧
    Executing (active .p8 n 0 0) ∧ kindOf (active .p8 n 0 0).phase = .stop ∧ (active .p8 n 0 0).stepCnt = n :=
  fun _ => ⟨⟨active_executing (by decide), rfl, rfl⟩, active_executing (by decide), rfl, rfl⟩

theorem witness_LastMicroStepsCompleteThePhase :
    (Executing (active .p4 6 8 0) ∧ (active .p4 6 8 0).len.toNat ≤ 4 ∧ kindOf (active .p4 6 8 0).phase = .byte ∧
      (active .p4 6 8 0).stepCnt = 6) ∧
    (Executing (active .p2 2 0 0) ∧ kindOf (active .p2 2 0 0).phase = .start ∧ (active .p2 2 0 0).stepCnt = 2) ∧
    Executing (active .p8 3 0 0) ∧ kindOf (active .p8 3 0 0).phase = .stop ∧ (active .p8 3 0 0).stepCnt = 3 :=
  ⟨⟨active_executing (by decide), by decide⟩, ⟨active_executing (by decide), by decide⟩, active_executing (by decide),
    by decide⟩

/-- Phase 4 has its two clauses at IDX = 0 and IDX = 1 of LEN = 2. -/
theorem witness_BytePhasesComplete :
    (Executing (active .p0 6 8 0) ∧ (active .p0 6 8 0).stepCnt = 6) ∧
    (Executing (active .p3 6 8 0) ∧ memRead (active .p3 6 8 0).seg 0 = some 0x3F) ∧
    (Executing (active .p4 6 8 0) ∧ (active .p4 6 8 0).idx.toNat + 1 < (active .p4 6 8 0).len.toNat ∧
      memRead (active .p4 6 8 0).seg 1 = some 0x06) ∧
    (Executing { active .p4 6 8 0 with idx := 1 } ∧ ¬ (1 : BitVec 3).toNat + 1 < (active .p4 6 8 0).len.toNat) ∧
    Executing (active .p7 6 8 0) ∧ (active .p7 6 8 0).stepCnt = 6 :=
  ⟨⟨active_executing (by decide), rfl⟩, ⟨active_executing (by decide), rfl⟩,
    ⟨active_executing (by decide), by decide, rfl⟩,
    ⟨executing_of_longest (by decide) rfl rfl, by decide⟩, active_executing (by decide), rfl⟩

theorem witness_LinePhasesComplete : ∀ x ∈ [(Phase.p1, (3 : BitVec 3)), (.p2, 2), (.p5, 3), (.p6, 2), (.p8, 3)],
    Executing (active x.1 x.2 0 0) ∧ (active x.1 x.2 0 0).phase = x.1 ∧ (active x.1 x.2 0 0).stepCnt = x.2 := by
  intro x hx
  refine ⟨active_executing ?_, rfl, rfl⟩
  simp only [List.mem_cons, List.not_mem_nil, or_false] at hx
  rcases hx with rfl | rfl | rfl | rfl | rfl <;> decide

theorem witness_PhaseOnlyDelegatesBeforeItsLastStep :
    (Executing (active .p0 2 7 0) ∧ LegalTriple .byte 2 7 ∧ (2 : BitVec 3) ≠ lastStep .byte ∧
      decodePhase (active .p0 2 7 0).phase.code = .ok .p0Wrmode) ∧
    (Executing (active .p2 1 0 0) ∧ LegalTriple .start 1 0 ∧ (1 : BitVec 3) ≠ lastStep .start) ∧
    Executing (active .p8 2 0 0) ∧ LegalTriple .stop 2 0 ∧ (2 : BitVec 3) ≠ lastStep .stop :=
  ⟨⟨active_executing (by decide), by simp [LegalTriple], by decide, by decide⟩,
    ⟨active_executing (by decide), by simp [LegalTriple], by decide⟩,
    active_executing (by decide), by simp [LegalTriple], by decide⟩

theorem witness_IdleEntryReturnsOne : State.reset.phase = .idle := rfl

/-- Bit 7 of each byte. -/
theorem witness_WireBytesGoOutLeastSignificantBitFirst :
    (Executing (active .p0 1 7 0) ∧ (active .p0 1 7 0).bitcnt.toNat < 8 ∧ (0 : Byte) = (0x40 : Byte) >>> 7) ∧
    (Executing (active .p3 1 7 1) ∧ (1 : Byte) = (0xC0 + (3 : BitVec 2).setWidth 8 : Byte) >>> 7) ∧
    (Executing (active .p4 1 7 1) ∧ (1 : Byte) = (0xFF : Byte) >>> 7) ∧
    Executing (active .p7 1 7 1) ∧ (1 : Byte) = (0x80 + ((1 : BitVec 1) ++ (7 : BitVec 3)).setWidth 8 : Byte) >>> 7 :=
  ⟨⟨active_executing (by decide), by decide, by decide⟩, ⟨active_executing (by decide), by decide⟩,
    ⟨active_executing (by decide), by decide⟩, active_executing (by decide), by decide⟩

/-- A state at the start of a unit, ticked at this very time, with moves to come. -/
def fresh (ph : Phase) (ms : List Move) : State := { active ph 0 0 0x40 with lastUs := 0, moves := ms }

theorem fresh_times (ph : Phase) (ms : List Move) :
    (fresh ph ms).nowMs - (fresh ph ms).startMs ≤ Config.timing.wdogMs ∧
    ((fresh ph ms).nowUs - (fresh ph ms).lastUs).toNat + Config.timing.minUs.toNat < 2 ^ 32 := by
  constructor
  · rw [show (fresh ph ms).nowMs - (fresh ph ms).startMs = 0 by simp [fresh, active, State.reset], BitVec.le_def]
    exact Nat.zero_le _
  · have := Config.timing.minUs.isLt
    simpa [fresh, active, State.reset] using this

theorem witness_OneByteTakesTwentyEightTicks (ms : List Move) :
    let s := fresh .p4 (runMoves 28 ++ ms)
    kindOf s.phase = .byte ∧ s.stepCnt = 0 ∧ s.bitcnt = 0 ∧ s.len.toNat ≤ 4 ∧
    s.nowMs - s.startMs ≤ Config.timing.wdogMs ∧
    (s.nowUs - s.lastUs).toNat + Config.timing.minUs.toNat < 2 ^ 32 ∧ s.moves = runMoves 28 ++ ms :=
  ⟨rfl, rfl, rfl, (by decide : 2 ≤ 4), (fresh_times _ _).1, (fresh_times _ _).2, rfl⟩

theorem witness_LineConditionsAreFixedEventSequences (ms : List Move) :
    (let s := fresh .p2 (runMoves 3 ++ ms);
      kindOf s.phase = .start ∧ s.stepCnt = 0 ∧ s.nowMs - s.startMs ≤ Config.timing.wdogMs ∧
      (s.nowUs - s.lastUs).toNat + Config.timing.minUs.toNat < 2 ^ 32 ∧ s.moves = runMoves 3 ++ ms) ∧
    (let s := fresh .p8 (runMoves 4 ++ ms);
      kindOf s.phase = .stop ∧ s.stepCnt = 0 ∧ s.nowMs - s.startMs ≤ Config.timing.wdogMs ∧
      (s.nowUs - s.lastUs).toNat + Config.timing.minUs.toNat < 2 ^ 32 ∧ s.moves = runMoves 4 ++ ms) :=
  ⟨⟨rfl, rfl, (fresh_times _ _).1, (fresh_times _ _).2, rfl⟩,
    rfl, rfl, (fresh_times _ _).1, (fresh_times _ _).2, rfl⟩

theorem witness_WholeTransmissionEmitsItsFrames (ms : List Move) :
    let s := fresh .p0 (runMoves (102 + 28 * 2) ++ ms)
    s.phase = .p0 ∧ s.stepCnt = 0 ∧ s.bitcnt = 0 ∧ s.byte = 0x40 ∧ 1 ≤ s.len.toNat ∧ s.len.toNat ≤ 4 ∧
    s.nowMs - s.startMs ≤ Config.timing.wdogMs ∧
    (s.nowUs - s.lastUs).toNat + Config.timing.minUs.toNat < 2 ^ 32 ∧
    s.moves = runMoves (102 + 28 * s.len.toNat) ++ ms :=
  ⟨rfl, rfl, rfl, rfl, (by decide : 1 ≤ 2), (by decide : 2 ≤ 4), (fresh_times _ _).1, (fresh_times _ _).2, rfl⟩

/-- The holds and the interval are met by the largest 32-bit times. -/
theorem witness_ArmedTraceReadsAsThreeFrames :
    let s := sched (armFullMoves 2 0 0x063F 4294967295 4294967295 1 ++ runMoves (101 + 28 * (clampLen 2).toNat))
    s.pre = .ready ∧ s.clk = .released ∧ s.dio = .released ∧ s.wire = [] ∧ s.seg.Pairwise (fun x y => x.1 < y.1) ∧
    Config.timing.settleUs ≤ BitVec.ofNat 32 4294967295 ∧ Config.timing.startUs ≤ BitVec.ofNat 32 4294967295 ∧
    Config.timing.minUs ≤ BitVec.ofNat 32 (4294967295 + 4294967295 + 1) ∧
    s.moves = armFullMoves 2 0 0x063F 4294967295 4294967295 1 ++ runMoves (101 + 28 * (clampLen 2).toNat) :=
  ⟨rfl, rfl, rfl, rfl, List.Pairwise.nil, hold_le_longest _, hold_le_longest _, hold_le_longest _, rfl⟩

/-- The invariants hold in the middle of a transmission: phase 4, the second byte, three bits sent. -/
theorem active_invariants : Invariants { active .p4 1 3 0x1F with idx := 1 } where
  legalStep := by simp [LegalStep, LegalTriple, active, kindOf]
  legalIndex := by simp [LegalIndex, active]
  segWf := by decide
  zeroFilled := by
    intro i hi hl
    have h2 : ({ active .p4 1 3 0x1F with idx := 1 } : State).len.toNat = 2 := rfl
    rw [h2] at hl
    have h0 : (0 : Nat) ≠ i := by omega
    have h1 : (1 : Nat) ≠ i := by omega
    simp [active, memRead, memGet, hi, h0, h1]
  byteShifted := by simp [ByteShifted, active]

theorem witness_EveryStepKeepsTheInvariants :
    Invariants { active .p4 1 3 0x1F with idx := 1, moves := [.present 0x20000000000000] } ∧
    ∃ t, step { active .p4 1 3 0x1F with idx := 1, moves := [.present 0x20000000000000] } = .next t := by
  constructor
  · obtain ⟨a, b, c, d, e⟩ := active_invariants
    exact ⟨a, b, c, d, e⟩
  · have h : Executing ({ active .p4 1 3 0x1F with idx := 1 }) := executing_of_longest (by decide) rfl rfl
    exact ⟨_, (execTick_executing h).trans rfl⟩

theorem witness_NoStepStopsInAnInvariantState :
    Invariants { active .p4 1 3 0x1F with idx := 1, moves := [.present 0x20000000000000] } ∧
    HostopSchedule { active .p4 1 3 0x1F with idx := 1, moves := [.present 0x20000000000000] } := by
  constructor
  · obtain ⟨a, b, c, d, e⟩ := active_invariants
    exact ⟨a, b, c, d, e⟩
  · intro w hw
    simp only [List.mem_singleton, Move.present.injEq] at hw
    rw [hw]
    decide

theorem witness_PadsAlwaysFollowTheTrace :
    PadsFollowTrace { State.reset with pre := .reld, moves := [.armseq] } ∧
    step { State.reset with pre := .reld, moves := [.armseq] } =
      .next { State.reset with pre := .strt, wire := [⟨.dio, .released⟩] } := ⟨⟨rfl, rfl⟩, rfl⟩

/-- One state where the tick executes and one where an arming is in progress and it does not. -/
theorem witness_StepsKeepAnUndisturbedWire :
    (Undisturbed { active .p2 2 0 0xC0 with moves := [.present tickWord] } ∧
      NoTickWhileArming { active .p2 2 0 0xC0 with moves := [.present tickWord] } ∧
      ∃ t, step { active .p2 2 0 0xC0 with moves := [.present tickWord] } = .next t) ∧
    Undisturbed (sched [.armseq]) ∧ NoTickWhileArming (sched [.armseq]) ∧ step (sched [.armseq]) = .next State.reset := by
  refine ⟨⟨?_, ?_, ?_⟩, ?_, ?_, rfl⟩
  · exact ⟨rfl, rfl⟩
  · intro _ _ _ _ h
    exact absurd rfl h
  · have h : Executing (active .p2 2 0 0xC0) := active_executing (by decide)
    exact ⟨_, (execTick_executing h).trans rfl⟩
  · exact trivial
  · intro w rest h
    cases h

theorem witness_StartsAndStopsOnlyAtS2AndT3 :
    (Undisturbed (active .p2 2 0 0xC0) ∧ (active .p2 2 0 0xC0).pre = .ready ∧ Executing (active .p2 2 0 0xC0) ∧
      ∃ t, exec .tick (active .p2 2 0 0xC0) = .next t) ∧
    Undisturbed { active .p8 3 0 0 with dio := .low } ∧ Executing { active .p8 3 0 0 with dio := .low } ∧
      ∃ t, exec .tick { active .p8 3 0 0 with dio := .low } = .next t := by
  have h : Executing (active .p2 2 0 0xC0) := active_executing (by decide)
  have h' : Executing { active .p8 3 0 0 with dio := .low } := executing_of_longest (by decide) rfl rfl
  exact ⟨⟨⟨rfl, rfl⟩, rfl, h, _, (execTick_executing h).trans rfl⟩, ⟨rfl, rfl⟩, h', _, (execTick_executing h').trans rfl⟩

/-- TICK and the selected row execute here, whatever the timing parameters; SETBR in the same state writes no pin. -/
theorem witness_OneEventForEachPinWriteAndNoOther :
    (WritesPin .b2Clkhi (active .p0 2 7 0) ∧ ∃ t, exec .b2Clkhi (active .p0 2 7 0) = .next t) ∧
    (WritesPin .armReld (arming .reld 0 0) ∧ ∃ t, exec .armReld (arming .reld 0 0) = .next t) ∧
    ¬ WritesPin (.setbr 1 2) (active .p0 2 7 0) ∧ ∃ t, exec (.setbr 1 2) (active .p0 2 7 0) = .next t := by
  have h : Executing (active .p0 2 7 0) := active_executing (by decide)
  refine ⟨⟨.inl ⟨h, .inr (.inr (.inl (by decide)))⟩, _,
    (ustepWith_enabled (k := .byte) (n := 2) (micro := microB2) h rfl rfl).trans rfl⟩,
    ⟨.inr ⟨rfl, by decide⟩, _, rfl⟩, ?_, _, rfl⟩
  rintro (⟨-, hi | hi | hi | ⟨pl, b, -, -, hb⟩⟩ | ⟨hi, -⟩)
  · cases hi
  · exact absurd hi (by decide)
  · exact absurd hi (by decide)
  · cases pl <;> simp only [decodeWirebyte] at hb <;> first | (split at hb <;> cases hb) | cases hb
  · exact hi

/-- SETBR with an arming in progress is nobody's writer: it meets every premise at once, in a state where a TICK executes. -/
theorem witness_EachRegisterHasOnlyItsWriters :
    let s := { active .p0 2 7 0 with pre := .done }
    (∃ t, exec (.setbr 1 2) s = .next t) ∧ ¬ Loads (.setbr 1 2) s ∧ ¬ Selected (.setbr 1 2) s ∧
    ¬ SubStep (.setbr 1 2) s ∧ s.pre ≠ .ready ∧ Instr.setbr 1 2 ≠ .tick ∧ Instr.setbr 1 2 ≠ .isidle ∧
    Instr.setbr 1 2 ≠ .idle := by
  refine ⟨⟨_, rfl⟩, fun h => absurd h.1 (by decide), ?_, id, by decide, by decide, by decide, by decide⟩
  rintro (hi | hi | hi | ⟨pl, b, -, -, hb⟩)
  · cases hi
  · exact absurd hi (by decide)
  · exact absurd hi (by decide)
  · cases pl <;> simp only [decodeWirebyte] at hb <;> first | (split at hb <;> cases hb) | cases hb

theorem witness_OnlyThreeEventsMoveTheSequencer :
    (∃ t, exec (.arm 1 0 0) State.reset = .next t ∧
      (t.phase ≠ State.reset.phase ∨ t.stepCnt ≠ State.reset.stepCnt)) ∧
    ∃ t, exec .b0Clklo (active .p0 0 0 0x40) = .next t ∧ (t.phase ≠ .p0 ∨ t.stepCnt ≠ 0) := by
  have h : Executing (active .p0 0 0 0x40) := active_executing (by decide)
  exact ⟨⟨State.reset.armLoad 1 0 0, rfl, .inl (by decide)⟩, _,
    (ustepWith_enabled (k := .byte) (n := 0) (micro := microB0) h rfl rfl).trans rfl, .inr (by decide)⟩

theorem witness_IdleAndReadyIsQuiescent :
    State.reset.phase = .idle ∧ State.reset.pre = .ready ∧ (∀ len pos seg, Instr.tick ≠ .arm len pos seg) ∧
    Instr.tick ≠ .clear := by simp [State.reset]

theorem witness_BrightIsSampledOnlyAtTheEndOfPhase5 :
    ¬ ((active .p5 2 0 0).phase = .p5 ∧ (active .p5 2 0 0).stepCnt = 3) := by decide

end Sys2Proof.Tests
end

/-! PROOFS. What executing a decoded row of the levels PHASE, USTEP and WIREBYTE is, and the statement that a row which is not
enabled changes nothing (R13). -/

namespace Sys2Proof.Machine

open Sys2Proof.Safety

/-! ### A decoded row is the view of the executed tick that its code names -/

/-- A PHASE code other than the sentinel's is the number of a phase, and its row is the entry of that phase (R77, R120), with the
completion action that R111 selects there. -/
theorem exec_of_decodePhase {w : BitVec 4} {i : Instr} (h : decodePhase w = .ok i) (hi : i ≠ .idle) :
    ∃ p completion, w = p.code ∧ (∀ u : State, u.phase = p → completion u = complete u) ∧
      ∀ s, exec i s = phaseWith Config.timing p completion s := by
  unfold decodePhase at h
  split at h <;> cases h
  case h_1 hw => exact ⟨.p0, completeP0, BitVec.eq_of_toNat_eq hw, fun u hu => by simp [complete, hu], fun _ => rfl⟩
  case h_2 hw => exact ⟨.p1, completeP1, BitVec.eq_of_toNat_eq hw, fun u hu => by simp [complete, hu], fun _ => rfl⟩
  case h_3 hw => exact ⟨.p2, completeP2, BitVec.eq_of_toNat_eq hw, fun u hu => by simp [complete, hu], fun _ => rfl⟩
  case h_4 hw => exact ⟨.p3, completeP3, BitVec.eq_of_toNat_eq hw, fun u hu => by simp [complete, hu], fun _ => rfl⟩
  case h_5 hw => exact ⟨.p4, completeP4, BitVec.eq_of_toNat_eq hw, fun u hu => by simp [complete, hu], fun _ => rfl⟩
  case h_6 hw => exact ⟨.p5, completeP5, BitVec.eq_of_toNat_eq hw, fun u hu => by simp [complete, hu], fun _ => rfl⟩
  case h_7 hw => exact ⟨.p6, completeP6, BitVec.eq_of_toNat_eq hw, fun u hu => by simp [complete, hu], fun _ => rfl⟩
  case h_8 hw => exact ⟨.p7, completeP7, BitVec.eq_of_toNat_eq hw, fun u hu => by simp [complete, hu], fun _ => rfl⟩
  case h_9 hw => exact ⟨.p8, completeP8, BitVec.eq_of_toNat_eq hw, fun u hu => by simp [complete, hu], fun _ => rfl⟩
  case h_10 => exact absurd rfl hi

/-- Every USTEP word is the code of its two fields, the kind NONE included (R78). -/
theorem ustepWord_fields : ∀ w : BitVec 5, ustepWord (kindOfCode (w.extractLsb' 3 2)) (w.extractLsb' 0 3) = w := by decide

/-- A USTEP code that decodes is the code of a kind and a step, and its row is the micro-step they select (R78). -/
theorem exec_of_decodeUstep {w : BitVec 5} {i : Instr} (h : decodeUstep w = .ok i) :
    ∃ k n micro, w = ustepWord k n ∧ selectMicro k n = some micro ∧
      ∀ s, exec i s = ustepWith Config.timing k n micro s := by
  have word : ∀ {k : Kind} {n : BitVec 3}, kindOfCode (w.extractLsb' 3 2) = k → (w.extractLsb' 0 3).toNat = n.toNat →
      w = ustepWord k n := fun hk hn => by rw [← hk, ← BitVec.eq_of_toNat_eq hn, ustepWord_fields]
  unfold decodeUstep at h
  split at h <;> cases h
  case h_1 hk hn => exact ⟨.byte, 0, microB0, word hk hn, rfl, fun _ => rfl⟩
  case h_2 hk hn => exact ⟨.byte, 1, microB1, word hk hn, rfl, fun _ => rfl⟩
  case h_3 hk hn => exact ⟨.byte, 2, microB2, word hk hn, rfl, fun _ => rfl⟩
  case h_4 hk hn => exact ⟨.byte, 3, microB3, word hk hn, rfl, fun _ => rfl⟩
  case h_5 hk hn => exact ⟨.byte, 4, microB4, word hk hn, rfl, fun _ => rfl⟩
  case h_6 hk hn => exact ⟨.byte, 5, microB5, word hk hn, rfl, fun _ => rfl⟩
  case h_7 hk hn => exact ⟨.byte, 6, microB6, word hk hn, rfl, fun _ => rfl⟩
  case h_8 hk hn => exact ⟨.start, 0, microS0, word hk hn, rfl, fun _ => rfl⟩
  case h_9 hk hn => exact ⟨.start, 1, microS1, word hk hn, rfl, fun _ => rfl⟩
  case h_10 hk hn => exact ⟨.start, 2, microS2, word hk hn, rfl, fun _ => rfl⟩
  case h_11 hk hn => exact ⟨.stop, 0, microT0, word hk hn, rfl, fun _ => rfl⟩
  case h_12 hk hn => exact ⟨.stop, 1, microT1, word hk hn, rfl, fun _ => rfl⟩
  case h_13 hk hn => exact ⟨.stop, 2, microT2, word hk hn, rfl, fun _ => rfl⟩
  case h_14 hk hn => exact ⟨.stop, 3, microT3, word hk hn, rfl, fun _ => rfl⟩

/-- The row of a wire byte is the emission of that byte at its place (R73 to R76). -/
theorem exec_of_decodeWirebyte {place : Place} {w : Byte} {i : Instr} (h : decodeWirebyte place w = .ok i) (s : State) :
    exec i s = wirebyteWith Config.timing place w s := by
  cases place <;> simp only [decodeWirebyte] at h
  case mode =>
    split at h <;> cases h
    next hw => rw [hw]; rfl
  case addr =>
    split at h <;> cases h
    next hw => exact congrArg (wirebyteWith Config.timing .addr · s) (cmdAddrByte_of_field w hw)
  case data => cases h; rfl
  case ctrl =>
    split at h <;> cases h
    next hw => exact congrArg (wirebyteWith Config.timing .ctrl · s) (cmdCtrlByte_of_field w hw)

/-! ### A row that is not enabled -/

/-- A PHASE row where no tick executes in its phase. -/
theorem exec_phase_disabled {s : State} {w : BitVec 4} {i : Instr} (h : decodePhase w = .ok i) (hi : i ≠ .idle)
    (hn : ¬ (Executing s ∧ s.phase.code = w)) : exec i s = .next s := by
  obtain ⟨p, completion, rfl, -, hexec⟩ := exec_of_decodePhase h hi
  rw [hexec]
  exact phaseWith_disabled fun ⟨he, hp⟩ => hn ⟨he, congrArg Phase.code hp⟩

/-- A USTEP row where no tick executes with its kind and step. -/
theorem exec_ustep_disabled {s : State} {w : BitVec 5} {i : Instr} (h : decodeUstep w = .ok i)
    (hn : ¬ (Executing s ∧ s.ustepCode = w)) : exec i s = .next s := by
  obtain ⟨k, n, micro, rfl, -, hexec⟩ := exec_of_decodeUstep h
  rw [hexec]
  exact ustepWith_disabled fun ⟨he, hk, hstep⟩ => hn ⟨he, congrArg₂ ustepWord hk hstep⟩

/-- A WIREBYTE row where no tick executes while its byte is being emitted at its place. -/
theorem exec_wirebyte_disabled {s : State} {place : Place} {w : Byte} {i : Instr} (h : decodeWirebyte place w = .ok i)
    (hn : ¬ (Executing s ∧ s.phase = phaseOfPlace place ∧ s.byte = w >>> s.bitcnt.toNat)) : exec i s = .next s :=
  (exec_of_decodeWirebyte h s).trans (wirebyteWith_disabled hn)

/-- The idle entry outside the sentinel phase. -/
theorem exec_idle_disabled {s : State} (h : s.phase ≠ .idle) : exec .idle s = .next s := by
  have hc : (s.phase == .idle) = false := beq_false_of_ne h
  simp [exec, execIdle, hc]

/-- Settles O22: a decoded row is the view of the executed tick that its code names, and a view with its condition false leaves
the state. -/
theorem nothingHappensWhereNotEnabled : Obligations.NothingHappensWhereNotEnabled :=
  ⟨fun _ _ _ => exec_phase_disabled, fun _ _ _ => exec_ustep_disabled, fun _ _ _ _ => exec_wirebyte_disabled,
    fun _ => exec_idle_disabled⟩

end Sys2Proof.Machine

/-! PROOFS. The reset state (R44, R45), the idle output and the idle entry. -/

namespace Sys2Proof.Machine

open Sys2Proof.Safety

/-- Settles O8: both pads are released and PRE is 0 at reset; PHASE is the sentinel, so a TICK is case 1 of R108. -/
theorem outputsAfterReset : Obligations.OutputsAfterReset :=
  ⟨rfl, rfl, (idleOutput_iff _ _).mpr (.inl rfl), rfl, execTick_idle rfl⟩

/-- A step that takes `rst` constructs the machine anew. -/
theorem step_rst {s : State} {rest : List Move} (h : s.moves = .rst :: rest) :
    step s = .next (s.consume rest).construct := step_env h rfl

/-- Settles O9: the state after `rst` is the constructed one, whose registers are those of the reset state. -/
theorem rstGivesTheSpecifiedResetValues : Obligations.RstGivesTheSpecifiedResetValues := fun s rest h =>
  ⟨(s.consume rest).construct, step_rst h, rfl, rfl, rfl, rfl, rfl, rfl, rfl, rfl, rfl, rfl, rfl,
    (idleOutput_iff _ _).mpr (.inl rfl), rfl⟩

/-- Settles O13: the `idle` output is the two comparisons of R40. -/
theorem isidleReturnsTheIdleOutput : Obligations.IsidleReturnsTheIdleOutput := by
  intro s
  have hout : idleOutput Config.timing s = decide (s.phase = .idle ∨ Config.timing.wdogMs < s.nowMs - s.startMs) := by
    rw [Bool.eq_iff_iff, idleOutput_iff, decide_eq_true_iff]
  rw [← hout]
  rfl

/-- The idle entry in the sentinel phase. -/
theorem exec_idle_enabled {s : State} (h : s.phase = .idle) : exec .idle s = .next { s with tickRet := some true } := by
  simp [exec, execIdle, State.recordRet, h]

/-- Settles O30: the entry records that PHASE is the sentinel, and a TICK there is case 1 of R108. -/
theorem idleEntryReturnsOne : Obligations.IdleEntryReturnsOne := fun _ h => ⟨exec_idle_enabled h, execTick_idle h⟩

/-- Settles O36: the sentinel phase asks nothing of IDX, the empty buffer is canonical and reads as zero, and every other
register the invariants name is 0. -/
theorem invariantsHoldAtReset : Obligations.InvariantsHoldAtReset where
  legalStep := ⟨.start, by simp [LegalTriple, State.reset]⟩
  legalIndex := ⟨by decide, by decide, trivial⟩
  segWf := memory_wf_nil
  zeroFilled := fun _ hi _ => memRead_some [] hi
  byteShifted := by simp [ByteShifted, State.reset]

end Sys2Proof.Machine

/-! PROOFS. What every step keeps: the invariants (R37, R46), and the pads as the trace says (R41). -/

namespace Sys2Proof.Machine

open Sys2Proof.Safety

/-! ### One step, packaged for properties that are kept -/

/-- The changes a move can make to the environment, and `rst`: everything a fetch that brings no operation can answer. -/
theorem fetch_env {m : Move} {s t : State} (h : fetch m s = .env t) :
    t = s.construct ∨ (∃ dUs dMs, t = s.advance dUs dMs) ∨ (∃ low, t = s.setReceiver low) ∨ t = s := by
  cases m with
  | rst => cases h; exact .inl rfl
  | time dUs dMs => cases h; exact .inr (.inl ⟨dUs, dMs, rfl⟩)
  | receiver low => cases h; exact .inr (.inr (.inl ⟨low, rfl⟩))
  | armseq =>
    simp only [fetch] at h
    split at h <;> cases h
    exact .inr (.inr (.inr rfl))
  | present w =>
    simp only [fetch] at h
    split at h <;> cases h
  | command op len pos seg on level => cases h

/-- What the taking of a move, each change of the environment and each operation keep, every step keeps. -/
theorem step_keeps {P : State → Prop} (consume : ∀ s rest, P s → P (s.consume rest)) (construct : ∀ s, P s → P s.construct)
    (advance : ∀ s dUs dMs, P s → P (s.advance dUs dMs)) (setReceiver : ∀ s low, P s → P (s.setReceiver low))
    (operation : ∀ i s t, P s → exec i s = .next t → P t) {s t : State} (hs : P s) (h : step s = .next t) : P t := by
  rcases step_next h with ⟨-, rfl⟩ | ⟨m, rest, -, ⟨i, -, hi⟩ | henv⟩
  · exact consume s [] hs
  · exact operation i _ t (consume s rest hs) hi
  · have hc := consume s rest hs
    rcases fetch_env henv with rfl | ⟨dUs, dMs, rfl⟩ | ⟨low, rfl⟩ | rfl
    · exact construct _ hc
    · exact advance _ dUs dMs hc
    · exact setReceiver _ low hc
    · exact hc

/-! ### The invariants -/

/-- What changes neither PHASE nor the buffer, LEN and IDX has only STEP, BITCNT and BYTE to answer for. -/
theorem invariants_of_buffer {s t : State} (h : Invariants s) (hphase : t.phase = s.phase) (hidx : t.idx = s.idx)
    (hlen : t.len = s.len) (hseg : t.seg = s.seg) (hstep : LegalStep t) (hbyte : ByteShifted t) : Invariants t where
  legalStep := hstep
  legalIndex := by simpa only [LegalIndex, hphase, hidx, hlen] using h.legalIndex
  segWf := hseg ▸ h.segWf
  zeroFilled := by simpa only [ZeroFilled, hlen, hseg] using h.zeroFilled
  byteShifted := hbyte

/-- The invariants read seven registers only. -/
theorem invariants_of_eq {s t : State} (h : Invariants s) (hphase : t.phase = s.phase) (hidx : t.idx = s.idx)
    (hlen : t.len = s.len) (hseg : t.seg = s.seg) (hstep : t.stepCnt = s.stepCnt) (hbitcnt : t.bitcnt = s.bitcnt)
    (hbyte : t.byte = s.byte) : Invariants t :=
  invariants_of_buffer h hphase hidx hlen hseg (by simpa only [LegalStep, hphase, hstep, hbitcnt] using h.legalStep)
    (by simpa only [ByteShifted, hbyte, hbitcnt] using h.byteShifted)

/-- The sub-machine of a phase is NONE for the sentinel only (R42). -/
theorem kindOf_eq_none_iff (p : Phase) : kindOf p = .none ↔ p = .idle := by cases p <;> decide

/-- While a phase is active, STEP and BITCNT fit its sub-machine. -/
theorem legalStep_active {s : State} (h : s.phase ≠ .idle) : LegalStep s ↔ LegalTriple (kindOf s.phase) s.stepCnt s.bitcnt := by
  simp [LegalStep, h]

/-- Whatever PHASE is, STEP and BITCNT fit some sub-machine. -/
theorem exists_legalTriple {s : State} (h : LegalStep s) : ∃ k, LegalTriple k s.stepCnt s.bitcnt := by
  unfold LegalStep at h
  split at h
  · exact h
  · exact ⟨_, h⟩

/-- Every sub-machine starts at STEP 0 and BITCNT 0. -/
theorem legalTriple_start {k : Kind} (h : k ≠ .none) : LegalTriple k 0 0 := by
  cases k
  case none => exact absurd rfl h
  all_goals simp [LegalTriple]

/-- STEP 0 and BITCNT 0 are legal in every phase. -/
theorem legalStep_start {s : State} (hstep : s.stepCnt = 0) (hbitcnt : s.bitcnt = 0) : LegalStep s := by
  by_cases hp : s.phase = .idle
  · simp only [LegalStep, hp, if_true, hstep, hbitcnt]
    exact ⟨.start, legalTriple_start (by decide)⟩
  · rw [legalStep_active hp, hstep, hbitcnt]
    exact legalTriple_start (mt (kindOf_eq_none_iff _).mp hp)

/-- A byte with nothing sent yet may be any byte. -/
theorem byteShifted_start {s : State} (hbitcnt : s.bitcnt = 0) : ByteShifted s := by
  simpa [ByteShifted, hbitcnt] using s.byte.isLt

/-- The shift of B2 keeps BYTE without bits above those still to be sent (R143). -/
theorem shiftRight_one_lt {b : Byte} {c : BitVec 4} (hc : c.toNat ≤ 7) (h : b.toNat < 2 ^ (8 - c.toNat)) :
    (b >>> 1).toNat < 2 ^ (8 - (c + 1).toNat) := by
  have hsucc : (c + 1).toNat = c.toNat + 1 := by bv_omega
  have hpow : 2 ^ (8 - c.toNat) = 2 * 2 ^ (8 - (c.toNat + 1)) := by
    rw [← Nat.pow_succ']
    congr 1
    omega
  rw [hsucc, BitVec.toNat_ushiftRight, Nat.shiftRight_eq_div_pow]
  omega


/-! ### The micro-steps -/

/-- The three forms of a micro-step, by the kind and STEP that select it: it goes on to the next STEP, or is B2 (R143), or is the
last of its sub-machine (R147, R163, R167). What it puts on the pin depends on BYTE at most. -/
inductive MicroForm : Kind → BitVec 3 → (State → Micro) → Prop where
  | advance {k : Kind} {n : BitVec 3} (p : Pin) (v : Byte → Level) (hlast : n.toNat < (lastStep k).toNat)
      (hshift : ¬ (k = .byte ∧ n = 2)) : MicroForm k n fun s => ({ s.drive p (v s.byte) with stepCnt := n + 1 }, false)
  | shift : MicroForm .byte 2 microB2
  | last {k : Kind} (p : Pin) (v : Level) : MicroForm k (lastStep k) fun s =>
      ({ s.drive p v with bitcnt := if k = .byte then 0 else s.bitcnt, stepCnt := 0 }, true)

/-- Every micro-step that can be selected has one of the three forms. -/
theorem selectMicro_form {k : Kind} {n : BitVec 3} {micro : State → Micro} (h : selectMicro k n = some micro) :
    MicroForm k n micro := by
  have step : ∀ {m : BitVec 3}, n.toNat = m.toNat → n = m := BitVec.eq_of_toNat_eq
  unfold selectMicro at h
  split at h <;> cases h
  case h_1 hn => cases step (m := 0) hn; exact .advance .clk (fun _ => .low) (by decide) (by decide)
  case h_2 hn => cases step (m := 1) hn; exact .advance .dio (fun b => levelOfBit (b.getLsbD 0)) (by decide) (by decide)
  case h_3 hn => cases step (m := 2) hn; exact .shift
  case h_4 hn => cases step (m := 3) hn; exact .advance .clk (fun _ => .low) (by decide) (by decide)
  case h_5 hn => cases step (m := 4) hn; exact .advance .dio (fun _ => .released) (by decide) (by decide)
  case h_6 hn => cases step (m := 5) hn; exact .advance .clk (fun _ => .released) (by decide) (by decide)
  case h_7 hn => cases step (m := 6) hn; exact .last .clk .low
  case h_8 hn => cases step (m := 0) hn; exact .advance .clk (fun _ => .released) (by decide) (by decide)
  case h_9 hn => cases step (m := 1) hn; exact .advance .dio (fun _ => .released) (by decide) (by decide)
  case h_10 hn => cases step (m := 2) hn; exact .last .dio .low
  case h_11 hn => cases step (m := 0) hn; exact .advance .clk (fun _ => .low) (by decide) (by decide)
  case h_12 hn => cases step (m := 1) hn; exact .advance .dio (fun _ => .low) (by decide) (by decide)
  case h_13 hn => cases step (m := 2) hn; exact .advance .clk (fun _ => .released) (by decide) (by decide)
  case h_14 hn => cases step (m := 3) hn; exact .last .dio .released

/-- A sub-machine that has a micro-step is not NONE, so the phase is active. -/
theorem phase_ne_idle_of_selectMicro {p : Phase} {n : BitVec 3} {micro : State → Micro}
    (h : selectMicro (kindOf p) n = some micro) : p ≠ .idle := by
  rintro rfl
  simp [selectMicro, kindOf] at h

/-- The STEP after a micro-step that goes on is legal where the STEP before it was (R46). -/
theorem legalTriple_advance {k : Kind} {n : BitVec 3} {c : BitVec 4} (h : LegalTriple k n c)
    (hlast : n.toNat < (lastStep k).toNat) (hshift : ¬ (k = .byte ∧ n = 2)) : LegalTriple k (n + 1) c := by
  have hsucc : (n + 1).toNat = n.toNat + 1 := by
    have : (lastStep k).toNat ≤ 6 := by cases k <;> decide
    bv_omega
  cases k <;> simp only [LegalTriple, lastStep, hsucc] at h hlast ⊢
  case byte =>
    have : n.toNat ≠ 2 := fun hn => hshift ⟨rfl, BitVec.eq_of_toNat_eq hn⟩
    simp at hlast
    omega
  case start | stop => simp at hlast; omega

/-- B2 leads to the next bit cell, or to the acknowledgment slot after the eighth bit (R143). -/
theorem legalTriple_shift {c : BitVec 4} (hc : c.toNat ≤ 7) :
    LegalTriple .byte (if c.toNat + 1 < 8 then 0 else 3) (c + 1) := by
  have hsucc : (c + 1).toNat = c.toNat + 1 := by bv_omega
  simp only [LegalTriple, hsucc]
  split <;> simp <;> omega


/-- The selected micro-step keeps the invariants, and the last one ends with STEP and BITCNT 0. -/
theorem selectMicro_keeps_invariants {s : State} {micro : State → Micro}
    (h : selectMicro (kindOf s.phase) s.stepCnt = some micro) (hs : Invariants s) :
    Invariants (micro s).1 ∧ ((micro s).2 = true → (micro s).1.stepCnt = 0 ∧ (micro s).1.bitcnt = 0) := by
  have hactive := phase_ne_idle_of_selectMicro h
  have htriple := (legalStep_active hactive).mp hs.legalStep
  have hform := selectMicro_form h
  generalize hk : kindOf s.phase = k at htriple hform
  generalize hn : s.stepCnt = n at htriple hform
  cases hform with
  | advance p v hlast hshift =>
    refine ⟨invariants_of_buffer hs (by simp) (by simp) (by simp) (by simp) ?_ ?_, nofun⟩
    · rw [legalStep_active (by simpa using hactive)]
      simpa [hk] using legalTriple_advance htriple hlast hshift
    · simpa [ByteShifted] using hs.byteShifted
  | shift =>
    have hc : s.bitcnt.toNat ≤ 7 := by simpa [LegalTriple] using htriple
    refine ⟨invariants_of_buffer hs (by simp [microB2]) (by simp [microB2]) (by simp [microB2]) (by simp [microB2]) ?_ ?_, nofun⟩
    · rw [legalStep_active (by simpa [microB2] using hactive)]
      simpa [microB2, hk] using legalTriple_shift hc
    · simpa [ByteShifted, microB2] using shiftRight_one_lt hc hs.byteShifted
  | last p v =>
    have hbitcnt : (if k = .byte then 0 else s.bitcnt) = 0 := by
      cases k
      case byte => rfl
      case start | stop => exact BitVec.eq_of_toNat_eq htriple.2
      case none => exact htriple.elim
    exact ⟨invariants_of_buffer hs (by simp) (by simp) (by simp) (by simp) (legalStep_start rfl hbitcnt)
      (byteShifted_start hbitcnt), fun _ => ⟨rfl, hbitcnt⟩⟩

/-! ### The completion actions, the executed tick and the arming -/

/-- The completion actions keep LEN and IDX in the ranges of the phase they lead to (R121 to R129): IDX starts at 0 with phase 4,
goes on while there is a byte left, and is LEN when phase 4 ends. -/
theorem afterCompletion_legalIndex {s : State} (h : LegalIndex s) : LegalIndex (afterCompletion s) := by
  obtain ⟨hlen, hidx, hrange⟩ := h
  cases hp : s.phase <;> simp only [hp] at hrange <;> simp only [afterCompletion, hp]
  case p0 | p1 | p2 | p5 | p6 | p7 => exact ⟨hlen, hidx, hrange⟩
  case p3 => exact ⟨hlen, Nat.zero_le _, hrange.1⟩
  case p4 =>
    have hsucc : (s.idx + 1).toNat = s.idx.toNat + 1 := by bv_omega
    split
    next hmore => exact ⟨hlen, by simp only [hsucc]; omega, by simpa only [hp, hsucc] using hmore⟩
    next hlast =>
      have heq : s.idx + 1 = s.len := BitVec.eq_of_toNat_eq (by omega)
      exact ⟨hlen, by simp only [heq, le_refl], Nat.zero_lt_of_lt hrange, heq⟩
  case p8 => exact ⟨hlen, hidx, trivial⟩
  case idle => exact ⟨hlen, hidx, by simp only [hp]⟩

/-- A completion action at STEP 0 and BITCNT 0 keeps the invariants. -/
theorem complete_keeps_invariants {s t : State} (hs : Invariants s) (hstep : s.stepCnt = 0) (hbitcnt : s.bitcnt = 0)
    (h : complete s = .next t) : Invariants t := by
  have hindex : LegalIndex t := by
    have ht := complete_eq_afterCompletion hs.legalIndex.1
    rw [h] at ht
    cases ht
    exact afterCompletion_legalIndex hs.legalIndex
  rw [complete_frame h] at hindex ⊢
  exact ⟨legalStep_start hstep hbitcnt, hindex, hs.segWf, hs.zeroFilled, byteShifted_start hbitcnt⟩

/-- An executed tick keeps the invariants: its micro-step does, and so does its completion action. -/
theorem runSelected_keeps_invariants {s t : State} (hs : Invariants s) (h : runSelected complete s = .next t) : Invariants t := by
  obtain ⟨micro, u, hm, rfl, hu⟩ := runSelected_next h
  have hstamped : Invariants { s with lastUs := s.nowUs } := invariants_of_eq hs rfl rfl rfl rfl rfl rfl rfl
  obtain ⟨hmicro, hdone⟩ := selectMicro_keeps_invariants (s := { s with lastUs := s.nowUs }) hm hstamped
  have hcompleted : Invariants u := by
    rcases hu with ⟨-, rfl⟩ | ⟨hd, hc⟩
    · exact hmicro
    · exact complete_keeps_invariants hmicro (hdone hd).1 (hdone hd).2 hc
  exact invariants_of_eq hcompleted rfl rfl rfl rfl rfl rfl rfl

/-- The clamped length is 1 to 4 (R80). -/
theorem clampLen_range (len : BitVec 8) : 1 ≤ (clampLen len).toNat ∧ (clampLen len).toNat ≤ 4 := by
  unfold clampLen
  split
  · decide
  · split
    · decide
    · next hle hne =>
      have hpos : len.toNat ≠ 0 := fun h0 => hne (BitVec.eq_of_toNat_eq h0)
      rw [BitVec.toNat_setWidth]
      omega

/-- ARM.LOAD keeps the invariants, whatever its operands: a fresh transmission of a legal length with a zero-filled buffer. -/
theorem armLoad_keeps_invariants {s : State} (hs : Invariants s) (len pos : BitVec 8) (seg : BitVec 32) :
    Invariants (s.armLoad len pos seg) where
  legalStep := legalStep_start rfl rfl
  legalIndex := ⟨(clampLen_range len).2, Nat.zero_le _, (clampLen_range len).1, rfl⟩
  segWf := memFill_wf _ hs.segWf
  zeroFilled := fun i hi hl => by
    have hout : ¬ i < (clampLen len).toNat := Nat.not_lt.mpr hl
    simp [memRead_memFill _ hs.segWf.1 hi, segByte, hout]
  byteShifted := byteShifted_start rfl

/-- Forcing PHASE to the sentinel keeps the invariants: STEP and BITCNT are what some sub-machine left (R186). -/
theorem takeWatchdog_keeps_invariants {s : State} (hs : Invariants s) : Invariants s.takeWatchdog where
  legalStep := by simpa [LegalStep] using exists_legalTriple hs.legalStep
  legalIndex := ⟨hs.legalIndex.1, hs.legalIndex.2.1, trivial⟩
  segWf := hs.segWf
  zeroFilled := hs.zeroFilled
  byteShifted := hs.byteShifted

/-- A tick that does not execute leaves the state or takes the watchdog, and records `ret` (R108 cases 1 to 3). -/
theorem quietTick_eq (s : State) :
    (¬ WatchdogHolds s ∧ quietTick Config.timing s = s.recordRet) ∨
    (WatchdogHolds s ∧ quietTick Config.timing s = s.takeWatchdog.recordRet) := by
  have hcond : (s.phase != .idle && watchdogExpired Config.timing s) = true ↔ WatchdogHolds s := by
    simp [WatchdogHolds, watchdogExpired_iff]
  unfold quietTick
  split
  next hw => exact .inr ⟨hcond.mp hw, rfl⟩
  next hw => exact .inl ⟨mt hcond.mpr hw, rfl⟩

/-- Every operation keeps the invariants. -/
theorem exec_keeps_invariants {i : Instr} {s t : State} (hs : Invariants s) (h : exec i s = .next t) : Invariants t := by
  cases exec_did h with
  | nothing => exact hs
  | tickQuiet =>
    rcases quietTick_eq s with ⟨-, hq⟩ | ⟨-, hq⟩ <;> rw [hq]
    · exact invariants_of_eq hs rfl rfl rfl rfl rfl rfl rfl
    · exact invariants_of_eq (takeWatchdog_keeps_invariants hs) rfl rfl rfl rfl rfl rfl rfl
  | ticked _ ht => exact runSelected_keeps_invariants hs ht
  | armed => exact armLoad_keeps_invariants hs _ _ _
  | cleared => exact armLoad_keeps_invariants hs _ _ _
  | brightSet | idleRead | relc | reld | strt | done | idleEntry => exact invariants_of_eq hs rfl rfl rfl rfl rfl rfl rfl

/-- Settles O37: `rst` leads to the invariants of the reset state, the other environment moves touch none of their registers, and
every operation keeps them. -/
theorem everyStepKeepsTheInvariants : Obligations.EveryStepKeepsTheInvariants := fun _ _ =>
  step_keeps (fun _ _ hs => invariants_of_eq hs rfl rfl rfl rfl rfl rfl rfl)
    (fun _ _ => invariants_of_eq invariantsHoldAtReset rfl rfl rfl rfl rfl rfl rfl)
    (fun _ _ _ hs => invariants_of_eq hs rfl rfl rfl rfl rfl rfl rfl)
    (fun _ _ hs => invariants_of_eq hs rfl rfl rfl rfl rfl rfl rfl)
    (fun _ _ _ => exec_keeps_invariants)

end Sys2Proof.Machine

/-! PROOFS. What each operation writes: pins and their events (R11, R41), registers and outputs (R22 to R36), and the sequencer
(R130). -/

namespace Sys2Proof.Machine

open Sys2Proof.Safety

/-! ### A row that the registers select is the executed tick -/

/-- A PHASE number determines its phase (R22). -/
theorem phaseOfCode_code (p : Phase) : phaseOfCode p.code = some p := by cases p <;> rfl

theorem phase_code_injective {p q : Phase} (h : p.code = q.code) : p = q :=
  Option.some.inj (by rw [← phaseOfCode_code p, h, phaseOfCode_code])

/-- The row of an active phase is not the sentinel's (R77). -/
theorem decodePhase_code_ne_idle {p : Phase} (h : p ≠ .idle) : decodePhase p.code ≠ .ok .idle := by
  cases p
  case idle => exact absurd rfl h
  all_goals decide

/-- A USTEP code determines its kind and step (R78). -/
theorem ustepWord_injective {k k' : Kind} {n n' : BitVec 3} (h : ustepWord k n = ustepWord k' n') : k = k' ∧ n = n' := by
  have hkind : ∀ k n, kindOfCode ((ustepWord k n).extractLsb' 3 2) = k := by intro k; cases k <;> decide
  have hstep : ∀ k n, (ustepWord k n).extractLsb' 0 3 = n := by intro k; cases k <;> decide
  exact ⟨by rw [← hkind k n, h, hkind], by rw [← hstep k n, h, hstep]⟩

/-- Only the completion action of the phase the machine is in matters to an executed tick. -/
theorem runSelected_congr {s : State} {completion : State → Outcome}
    (hc : ∀ u : State, u.phase = s.phase → completion u = complete u) : runSelected completion s = runSelected complete s := by
  unfold runSelected
  split
  · next micro hm =>
    obtain ⟨p, v, hf⟩ := selectMicro_frame hm { s with lastUs := s.nowUs }
    have hphase : (micro { s with lastUs := s.nowUs }).1.phase = s.phase := by rw [hf]; simp
    simp only [runMicro, hc _ hphase]
  · rfl

/-- TICK in case 4, and every row the registers select where a tick executes, is the executed tick (R108, R111). -/
theorem exec_of_executesTick {i : Instr} {s : State} (h : ExecutesTick i s) : exec i s = runSelected complete s := by
  obtain ⟨he, rfl | hphase | hustep | ⟨place, w, hp, hb, hbyte⟩⟩ := h
  · exact execTick_executing he
  · have hi : i ≠ .idle := by
      rintro rfl
      exact decodePhase_code_ne_idle he.1 hphase
    obtain ⟨p, completion, hcode, hc, hexec⟩ := exec_of_decodePhase hphase hi
    have hp := phase_code_injective hcode
    rw [hexec, phaseWith_enabled he hp, runSelected_congr (hp ▸ hc)]
  · obtain ⟨k, n, micro, hcode, hm, hexec⟩ := exec_of_decodeUstep hustep
    obtain ⟨hk, hn⟩ := ustepWord_injective hcode
    rw [hexec, ustepWith_enabled he hk hn, runSelected, hk, hn, hm]
  · rw [exec_of_decodeWirebyte hbyte, wirebyteWith_enabled he hp hb]

/-! ### Pin writes and their events -/

/-- An executed tick that answers a next state appends one event (R84). -/
theorem runSelected_event {s t : State} (h : runSelected complete s = .next t) : ∃ e, t.wire = s.wire ++ [e] := by
  obtain ⟨p, v, hf⟩ := runSelected_frame h
  exact ⟨⟨p, v⟩, by rw [hf]; simp⟩

/-- What the first three sub-steps do where they are enabled (R102 to R104). -/
theorem exec_subStep {i : Instr} {s : State} (h : SubStep i s) (hi : i ≠ .armDone) :
    ∃ p v t, exec i s = .next t ∧ t = { s.drive p v with pre := t.pre, dlyUs := t.dlyUs } := by
  cases i <;> simp only [SubStep] at h
  case armRelc => exact ⟨.clk, .released, { s.drive .clk .released with pre := .reld }, by simp [exec, execArmRelc, h], rfl⟩
  case armReld =>
    exact ⟨.dio, .released, { s.drive .dio .released with dlyUs := s.nowUs, pre := .strt }, by simp [exec, execArmReld, h], rfl⟩
  case armStrt =>
    obtain ⟨hp, hold⟩ := h
    exact ⟨.dio, .low, { s.drive .dio .low with dlyUs := s.nowUs, pre := .done },
      by simp [exec, execArmStrt, armStrtWith, hp, (holdElapsed_iff _ s).mpr hold], rfl⟩
  case armDone => exact absurd rfl hi

/-- An operation that writes a pin appends one event. -/
theorem exec_event {i : Instr} {s t : State} (h : exec i s = .next t) (hw : WritesPin i s) : ∃ e, t.wire = s.wire ++ [e] := by
  rcases hw with htick | ⟨hsub, hi⟩
  · exact runSelected_event (by rw [← exec_of_executesTick htick, h])
  · obtain ⟨p, v, u, hu, hf⟩ := exec_subStep hsub hi
    cases h.symm.trans hu
    exact ⟨⟨p, v⟩, by rw [hf]; simp⟩

/-- A tick that does not execute writes PHASE and `ret` at most. -/
theorem quietTick_frame (T : Timing) (s : State) :
    quietTick T s = { s with phase := (quietTick T s).phase, tickRet := (quietTick T s).tickRet } := by
  unfold quietTick
  split <;> rfl

/-- An operation that writes no pin appends no event. -/
theorem exec_no_event {i : Instr} {s t : State} (h : exec i s = .next t) (hw : ¬ WritesPin i s) : t.wire = s.wire := by
  cases exec_did h with
  | tickQuiet => rw [quietTick_frame]
  | ticked he => exact (hw (.inl he)).elim
  | relc hi hp => subst hi; exact (hw (.inr ⟨hp, nofun⟩)).elim
  | reld hi hp => subst hi; exact (hw (.inr ⟨hp, nofun⟩)).elim
  | strt hi hp hold => subst hi; exact (hw (.inr ⟨⟨hp, hold⟩, nofun⟩)).elim
  | _ => rfl

/-- Settles O42: a pin is written by an executed tick or by one of the first three sub-steps, each with its one event. -/
theorem oneEventForEachPinWriteAndNoOther : Obligations.OneEventForEachPinWriteAndNoOther :=
  fun _ _ _ h => ⟨exec_event h, exec_no_event h⟩

/-! ### The pads and the trace -/

/-- One more event sets the pad it names (R88). -/
theorem padAfter_concat (p : Pin) (v : Level) (es : List PinEvent) (e : PinEvent) :
    padAfter p v (es ++ [e]) = if e.pin = p then e.level else padAfter p v es := by
  induction es generalizing v with
  | nil => rfl
  | cons d es ih => exact ih _

/-- The two pads and the trace determine whether the pads follow it. -/
theorem padsFollowTrace_of_eq {s t : State} (h : PadsFollowTrace s) (hclk : t.clk = s.clk) (hdio : t.dio = s.dio)
    (hwire : t.wire = s.wire) : PadsFollowTrace t := by
  simpa only [PadsFollowTrace, hclk, hdio, hwire] using h

/-- A pin write sets the pad and appends its event (R11). -/
theorem padsFollowTrace_drive {s : State} (h : PadsFollowTrace s) (p : Pin) (v : Level) : PadsFollowTrace (s.drive p v) := by
  obtain ⟨hclk, hdio⟩ := h
  cases p
  case clk => exact ⟨by simp [padAfter_concat], by simp [padAfter_concat, hdio]⟩
  case dio => exact ⟨by simp [padAfter_concat, hclk], by simp [padAfter_concat]⟩

/-- Every operation keeps the pads as the trace says: it writes them by pin writes only. -/
theorem exec_keeps_padsFollowTrace {i : Instr} {s t : State} (hs : PadsFollowTrace s) (h : exec i s = .next t) :
    PadsFollowTrace t := by
  cases exec_did h with
  | tickQuiet => rw [quietTick_frame]; exact hs
  | ticked _ ht =>
    obtain ⟨p, v, hf⟩ := runSelected_frame ht
    rw [hf]
    exact padsFollowTrace_of_eq (padsFollowTrace_drive hs p v) rfl rfl rfl
  | relc => exact padsFollowTrace_of_eq (padsFollowTrace_drive hs .clk .released) rfl rfl rfl
  | reld => exact padsFollowTrace_of_eq (padsFollowTrace_drive hs .dio .released) rfl rfl rfl
  | strt => exact padsFollowTrace_of_eq (padsFollowTrace_drive hs .dio .low) rfl rfl rfl
  | _ => exact hs

/-- Settles O39: a reset releases both pads and empties the trace, and a step writes a pad with its event only. -/
theorem padsAlwaysFollowTheTrace : Obligations.PadsAlwaysFollowTheTrace :=
  ⟨⟨rfl, rfl⟩, fun _ _ =>
    step_keeps (fun _ _ hs => hs) (fun _ _ => ⟨rfl, rfl⟩) (fun _ _ _ hs => hs) (fun _ _ hs => hs)
      (fun _ _ _ => exec_keeps_padsFollowTrace)⟩

/-! ### Each register has only its writers -/

section Writers

variable {i : Instr} {s t : State}

/-- The two operations that are an ARM.LOAD where PRE is 0 (R101, R106). -/
theorem loads_of_arm {len pos : BitVec 8} {seg : BitVec 32} (hi : i = .arm len pos seg) (hr : s.pre = .ready) : Loads i s :=
  ⟨hr, .inl ⟨len, pos, seg, hi⟩⟩

theorem loads_of_clear (hi : i = .clear) (hr : s.pre = .ready) : Loads i s := ⟨hr, .inr hi⟩

/-- The registers an executed tick does not write, the result of ISIDLE, the inputs and the moves to come. -/
theorem runSelected_untouched (h : runSelected complete s = .next t) :
    t.seg = s.seg ∧ t.len = s.len ∧ t.pos = s.pos ∧ t.startMs = s.startMs ∧ t.bright = s.bright ∧ t.dlyUs = s.dlyUs ∧
      t.pre = s.pre ∧ t.idleOut = s.idleOut ∧ t.nowUs = s.nowUs ∧ t.nowMs = s.nowMs ∧ t.rxLow = s.rxLow ∧
      t.moves = s.moves := by
  obtain ⟨p, v, hf⟩ := runSelected_frame h
  rw [hf]
  simp

/-- PHASE (R22). -/
theorem exec_keeps_phase (h : exec i s = .next t) (hn : ¬ (Loads i s ∨ ExecutesTick i s ∨ (i = .tick ∧ WatchdogHolds s))) :
    t.phase = s.phase := by
  cases exec_did h with
  | tickQuiet hi =>
    rcases quietTick_eq s with ⟨-, hq⟩ | ⟨hw, -⟩
    · rw [hq]; rfl
    · exact (hn (.inr (.inr ⟨hi, hw⟩))).elim
  | ticked he => exact (hn (.inr (.inl he))).elim
  | armed hi hr => exact (hn (.inl (loads_of_arm hi hr))).elim
  | cleared hi hr => exact (hn (.inl (loads_of_clear hi hr))).elim
  | _ => rfl

/-- STEP, BYTE, BITCNT, IDX and LAST_US (R23 to R26, R32). -/
theorem exec_keeps_sequencer (h : exec i s = .next t) (hn : ¬ (Loads i s ∨ ExecutesTick i s)) :
    t.stepCnt = s.stepCnt ∧ t.byte = s.byte ∧ t.bitcnt = s.bitcnt ∧ t.idx = s.idx ∧ t.lastUs = s.lastUs := by
  cases exec_did h with
  | tickQuiet => rw [quietTick_frame]; simp only [and_self]
  | ticked he => exact (hn (.inr he)).elim
  | armed hi hr => exact (hn (.inl (loads_of_arm hi hr))).elim
  | cleared hi hr => exact (hn (.inl (loads_of_clear hi hr))).elim
  | _ => exact ⟨rfl, rfl, rfl, rfl, rfl⟩

/-- SEG, LEN, POS and START_MS (R30, R31, R33, R36). -/
theorem exec_keeps_loaded (h : exec i s = .next t) (hn : ¬ Loads i s) :
    t.seg = s.seg ∧ t.len = s.len ∧ t.pos = s.pos ∧ t.startMs = s.startMs := by
  cases exec_did h with
  | tickQuiet => rw [quietTick_frame]; simp only [and_self]
  | ticked _ ht => simp [runSelected_untouched ht]
  | armed hi hr => exact (hn (loads_of_arm hi hr)).elim
  | cleared hi hr => exact (hn (loads_of_clear hi hr)).elim
  | _ => exact ⟨rfl, rfl, rfl, rfl⟩

/-- CLK (R27). -/
theorem exec_keeps_clk (h : exec i s = .next t) (hn : ¬ (ExecutesTick i s ∨ (SubStep i s ∧ i = .armRelc))) : t.clk = s.clk := by
  cases exec_did h with
  | tickQuiet => rw [quietTick_frame]
  | ticked he => exact (hn (.inl he)).elim
  | relc hi hp => subst hi; exact (hn (.inr ⟨hp, rfl⟩)).elim
  | _ => rfl

/-- DIO (R28). -/
theorem exec_keeps_dio (h : exec i s = .next t)
    (hn : ¬ (ExecutesTick i s ∨ (SubStep i s ∧ (i = .armReld ∨ i = .armStrt)))) : t.dio = s.dio := by
  cases exec_did h with
  | tickQuiet => rw [quietTick_frame]
  | ticked he => exact (hn (.inl he)).elim
  | reld hi hp => subst hi; exact (hn (.inr ⟨hp, .inl rfl⟩)).elim
  | strt hi hp hold => subst hi; exact (hn (.inr ⟨⟨hp, hold⟩, .inr rfl⟩)).elim
  | _ => rfl

/-- BRIGHT (R29). -/
theorem exec_keeps_bright (h : exec i s = .next t) (hn : ¬ (s.pre = .ready ∧ ∃ on level, i = .setbr on level)) :
    t.bright = s.bright := by
  cases exec_did h with
  | tickQuiet => rw [quietTick_frame]
  | ticked _ ht => simp [runSelected_untouched ht]
  | brightSet hi hr => exact (hn ⟨hr, _, _, hi⟩).elim
  | _ => rfl

/-- DLY_US (R35). -/
theorem exec_keeps_dlyUs (h : exec i s = .next t) (hn : ¬ (SubStep i s ∧ (i = .armReld ∨ i = .armStrt))) :
    t.dlyUs = s.dlyUs := by
  cases exec_did h with
  | tickQuiet => rw [quietTick_frame]
  | ticked _ ht => simp [runSelected_untouched ht]
  | reld hi hp => subst hi; exact (hn ⟨hp, .inl rfl⟩).elim
  | strt hi hp hold => subst hi; exact (hn ⟨⟨hp, hold⟩, .inr rfl⟩).elim
  | _ => rfl

/-- PRE (R34). -/
theorem exec_keeps_pre (h : exec i s = .next t) (hn : ¬ (Loads i s ∨ SubStep i s)) : t.pre = s.pre := by
  cases exec_did h with
  | tickQuiet => rw [quietTick_frame]
  | ticked _ ht => simp [runSelected_untouched ht]
  | armed hi hr => exact (hn (.inl (loads_of_arm hi hr))).elim
  | cleared hi hr => exact (hn (.inl (loads_of_clear hi hr))).elim
  | relc hi hp => subst hi; exact (hn (.inr hp)).elim
  | reld hi hp => subst hi; exact (hn (.inr hp)).elim
  | strt hi hp hold => subst hi; exact (hn (.inr ⟨hp, hold⟩)).elim
  | done hi hp hold => subst hi; exact (hn (.inr ⟨hp, hold⟩)).elim
  | _ => rfl

/-- `ret` (R39). -/
theorem exec_keeps_tickRet (h : exec i s = .next t)
    (hn : ¬ (i = .tick ∨ ExecutesTick i s ∨ (i = .idle ∧ s.phase = .idle))) : t.tickRet = s.tickRet := by
  cases exec_did h with
  | tickQuiet hi => exact (hn (.inl hi)).elim
  | ticked he => exact (hn (.inr (.inl he))).elim
  | idleEntry hi hp => exact (hn (.inr (.inr ⟨hi, hp⟩))).elim
  | _ => rfl

/-- The result of ISIDLE (R109). -/
theorem exec_keeps_idleOut (h : exec i s = .next t) (hn : i ≠ .isidle) : t.idleOut = s.idleOut := by
  cases exec_did h with
  | tickQuiet => rw [quietTick_frame]
  | ticked _ ht => simp [runSelected_untouched ht]
  | idleRead hi => exact (hn hi).elim
  | _ => rfl

/-- The inputs (R43) and the moves to come. -/
theorem exec_keeps_inputs (h : exec i s = .next t) :
    t.nowUs = s.nowUs ∧ t.nowMs = s.nowMs ∧ t.rxLow = s.rxLow ∧ t.moves = s.moves := by
  cases exec_did h with
  | tickQuiet => rw [quietTick_frame]; simp only [and_self]
  | ticked _ ht => simp [runSelected_untouched ht]
  | _ => exact ⟨rfl, rfl, rfl, rfl⟩

end Writers

/-- Settles O43: one lemma per register, each by what an operation can have done. -/
theorem eachRegisterHasOnlyItsWriters : Obligations.EachRegisterHasOnlyItsWriters := fun _ _ _ h =>
  ⟨exec_keeps_phase h, exec_keeps_sequencer h, exec_keeps_loaded h, exec_keeps_clk h, exec_keeps_dio h, exec_no_event h,
    exec_keeps_bright h, exec_keeps_dlyUs h, exec_keeps_pre h, exec_keeps_tickRet h, exec_keeps_idleOut h,
    exec_keeps_inputs h⟩

/-- Settles O44: only an executed tick, the watchdog and ARM.LOAD are writers of PHASE or STEP. -/
theorem onlyThreeEventsMoveTheSequencer : Obligations.OnlyThreeEventsMoveTheSequencer := by
  intro i s t h hmoved
  cases exec_did h with
  | tickQuiet hi =>
    rcases quietTick_eq s with ⟨-, hq⟩ | ⟨hw, hq⟩
    · rw [hq] at hmoved
      exact hmoved.elim (absurd rfl) (absurd rfl)
    · rw [hq]
      exact .inr (.inl ⟨hi, hw, rfl, rfl⟩)
  | ticked he => exact .inl he
  | armed hi hr => exact .inr (.inr ⟨loads_of_arm hi hr, rfl, rfl⟩)
  | cleared hi hr => exact .inr (.inr ⟨loads_of_clear hi hr, rfl, rfl⟩)
  | _ => exact hmoved.elim (absurd rfl) (absurd rfl)

end Sys2Proof.Machine

/-! PROOFS. No step reads the pads or the trace (R41, D29): two machines that differ only there take the same step. -/

namespace Sys2Proof.Machine

open Sys2Proof.Safety

/-! ### Steps of two machines that agree -/

section Agreement

variable {R : State → State → Prop} {t u : State}

/-- Two steps that are enabled alike agree if they do where they are enabled, and the states they leave do. -/
theorem whenEnabled_agree {c c' : Bool} {o o' : Outcome} (hc : c' = c) (ho : c = true → outcomesAgree R o o') (htu : R t u) :
    outcomesAgree R (whenEnabled c o t) (whenEnabled c' o' u) := by
  subst hc
  rw [whenEnabled_eq, whenEnabled_eq]
  split
  next hen => exact ho hen
  next => exact htu

/-- Where both steps answer a next state, those states must be related. -/
theorem whenEnabled_next_agree {c c' : Bool} {a b : State} (hc : c' = c) (hab : R a b) (htu : R t u) :
    outcomesAgree R (whenEnabled c (.next a) t) (whenEnabled c' (.next b) u) := whenEnabled_agree hc (fun _ => hab) htu

/-- Two executed ticks agree if their micro-steps do, `done` included, their completion actions do, and recording `ret` does not
tell them apart. -/
theorem runMicro_agree {micro : State → Micro} {completion : State → Outcome}
    (hdone : (micro { u with lastUs := u.nowUs }).2 = (micro { t with lastUs := t.nowUs }).2)
    (hmicro : R (micro { t with lastUs := t.nowUs }).1 (micro { u with lastUs := u.nowUs }).1)
    (hcomplete : ∀ x y, R x y → outcomesAgree R (completion x) (completion y))
    (hret : ∀ x y, R x y → R x.recordRet y.recordRet) :
    outcomesAgree R (runMicro micro completion t) (runMicro micro completion u) := by
  have hc := hcomplete _ _ hmicro
  simp only [runMicro, hdone]
  cases (micro { t with lastUs := t.nowUs }).2
  case false => exact hret _ _ hmicro
  case true =>
    simp only [if_true]
    generalize completion (micro { t with lastUs := t.nowUs }).1 = o at hc ⊢
    generalize completion (micro { u with lastUs := u.nowUs }).1 = o' at hc ⊢
    cases o <;> cases o' <;> simp only [outcomesAgree] at hc ⊢
    case next.next => exact hret _ _ hc
    all_goals exact hc

/-- Two outcomes that agree under a relation agree under any it implies. -/
theorem outcomesAgree_imp {Q : State → State → Prop} (hRQ : ∀ x y, R x y → Q x y) {o o' : Outcome}
    (h : outcomesAgree R o o') : outcomesAgree Q o o' := by
  cases o <;> cases o' <;> simp only [outcomesAgree] at h ⊢
  case next.next => exact hRQ _ _ h
  all_goals exact h

end Agreement

/-! ### Machines that differ in the pads and the trace -/

/-- The same machine with other pads and another trace. -/
def State.withPads (s : State) (c d : Level) (w : List PinEvent) : State := { s with clk := c, dio := d, wire := w }

/-- `t` and `u` have appended the same events, `t` to the pads and the trace of `s`, `u` to `c`, `d` and `w`, and are equal
everywhere else. -/
def PadTwins (s : State) (c d : Level) (w : List PinEvent) (t u : State) : Prop :=
  ∃ es, t.wire = s.wire ++ es ∧ t.clk = padAfter .clk s.clk es ∧ t.dio = padAfter .dio s.dio es ∧
    u = t.withPads (padAfter .clk c es) (padAfter .dio d es) (w ++ es)

section PadTwins

variable {s : State} {c d : Level} {w : List PinEvent} {t u : State}

/-- Before any event the twins differ in what they started from. -/
theorem padTwins_start (s : State) (c d : Level) (w : List PinEvent) : PadTwins s c d w s (s.withPads c d w) :=
  ⟨[], by simp, rfl, rfl, by simp [padAfter]⟩

/-- What does not read the pads or the trace is the same for twins. -/
theorem padTwins_eq {α : Sort _} (f : State → α) (h : PadTwins s c d w t u)
    (hf : ∀ x a b l, f (State.withPads x a b l) = f x := by intros; rfl) : f u = f t := by
  obtain ⟨_, -, -, -, rfl⟩ := h
  exact hf _ _ _ _

/-- A change that neither reads nor writes the pads or the trace leaves twins. -/
theorem padTwins_update (f : State → State) (h : PadTwins s c d w t u)
    (hf : ∀ x a b l, f (State.withPads x a b l) = (f x).withPads a b l := by intros; rfl) : PadTwins s c d w (f t) (f u) := by
  obtain ⟨es, hwire, hclk, hdio, rfl⟩ := h
  have hself : f t = (f t).withPads t.clk t.dio t.wire := hf t t.clk t.dio t.wire
  exact ⟨es, (congrArg State.wire hself).trans hwire, (congrArg State.clk hself).trans hclk,
    (congrArg State.dio hself).trans hdio, hf _ _ _ _⟩

/-- A pin write appends one event to both traces and sets the pad of both. -/
theorem padTwins_drive (h : PadTwins s c d w t u) (p : Pin) (v : Level) : PadTwins s c d w (t.drive p v) (u.drive p v) := by
  obtain ⟨es, hwire, hclk, hdio, rfl⟩ := h
  refine ⟨es ++ [⟨p, v⟩], by simp [hwire], ?_, ?_, ?_⟩ <;>
    cases p <;> simp [padAfter_concat, State.drive, State.withPads, hclk, hdio]

/-- Twins take the same micro-step, and its `done` is the same. -/
theorem padTwins_micro {k : Kind} {n : BitVec 3} {micro : State → Micro} (hm : selectMicro k n = some micro)
    (h : PadTwins s c d w t u) : PadTwins s c d w (micro t).1 (micro u).1 ∧ (micro u).2 = (micro t).2 := by
  have hbyte := padTwins_eq State.byte h
  have hbitcnt := padTwins_eq State.bitcnt h
  cases selectMicro_form hm with
  | advance p v =>
    simp only [hbyte, and_true]
    exact padTwins_update (fun x => { x with stepCnt := n + 1 }) (padTwins_drive h p (v t.byte))
  | shift =>
    exact ⟨padTwins_update (fun x => { x with
        byte := x.byte >>> 1, bitcnt := x.bitcnt + 1, stepCnt := if x.bitcnt.toNat + 1 < 8 then 0 else 3 })
      (padTwins_drive h .clk .released), rfl⟩
  | last p v =>
    simp only [hbitcnt, and_true]
    exact padTwins_update (fun x => { x with bitcnt := if k = .byte then 0 else t.bitcnt, stepCnt := 0 }) (padTwins_drive h p v)

/-- Twins complete a phase alike. -/
theorem padTwins_complete (h : PadTwins s c d w t u) : outcomesAgree (PadTwins s c d w) (complete t) (complete u) := by
  have hphase := padTwins_eq State.phase h
  have hidx := padTwins_eq (fun x => x.idx.toNat) h
  have hmore := padTwins_eq (fun x => x.idx.toNat + 1 < x.len.toNat) h
  have hread := padTwins_eq (fun x => memRead x.seg (x.idx.toNat + 1)) h
  cases hp : t.phase <;> rw [hp] at hphase <;> simp only [complete, hp, hphase]
  case p0 => exact padTwins_update (fun x => { x with byte := cmdAddrByte x.pos, phase := .p1 }) h
  case p1 => exact padTwins_update (fun x => { x with phase := .p2 }) h
  case p2 => exact padTwins_update (fun x => { x with phase := .p3 }) h
  case p3 =>
    simp only [completeP3, memRead_some _ (show 0 < 4 by omega)]
    exact padTwins_update (fun x => { x with idx := 0, byte := memGet x.seg 0, phase := .p4 }) h
  case p4 =>
    simp only [completeP4, hmore, hread]
    split
    · split
      next b _ => exact padTwins_update (fun x => { x with idx := x.idx + 1, byte := b }) h
      next => exact congrArg (fun n => Fault.segOutOfRange (n + 1)) hidx.symm
    · exact padTwins_update (fun x => { x with idx := x.idx + 1, phase := .p5 }) h
  case p5 => exact padTwins_update (fun x => { x with byte := cmdCtrlByte x.bright, phase := .p6 }) h
  case p6 => exact padTwins_update (fun x => { x with phase := .p7 }) h
  case p7 => exact padTwins_update (fun x => { x with phase := .p8 }) h
  case p8 => exact padTwins_update (fun x => { x with phase := .idle }) h
  case idle => exact h

/-- Twins execute a tick alike. -/
theorem padTwins_runMicro {k : Kind} {n : BitVec 3} {micro : State → Micro} (hm : selectMicro k n = some micro)
    (h : PadTwins s c d w t u) : outcomesAgree (PadTwins s c d w) (runMicro micro complete t) (runMicro micro complete u) := by
  obtain ⟨hmicro, hdone⟩ := padTwins_micro hm (padTwins_update (fun x => { x with lastUs := x.nowUs }) h)
  exact runMicro_agree hdone hmicro (fun _ _ => padTwins_complete) (fun _ _ => padTwins_update State.recordRet)

/-- The micro-step selected is the same for both twins (R111). -/
theorem padTwins_runSelected (h : PadTwins s c d w t u) :
    outcomesAgree (PadTwins s c d w) (runSelected complete t) (runSelected complete u) := by
  have hsel := padTwins_eq (fun x => selectMicro (kindOf x.phase) x.stepCnt) h
  simp only [runSelected, hsel]
  cases hm : selectMicro (kindOf t.phase) t.stepCnt with
  | none => rfl
  | some micro => exact padTwins_runMicro hm h

/-- Each view of the executed tick is enabled for both twins or for none. -/
theorem padTwins_phaseWith {p : Phase} {completion : State → Outcome} (hc : ∀ x : State, x.phase = p → completion x = complete x)
    (h : PadTwins s c d w t u) :
    outcomesAgree (PadTwins s c d w) (phaseWith Config.timing p completion t) (phaseWith Config.timing p completion u) := by
  refine whenEnabled_agree (padTwins_eq (fun x => executes Config.timing x && x.phase == p) h) (fun hen => ?_) h
  have ht : t.phase = p := by simp only [Bool.and_eq_true, beq_iff_eq] at hen; exact hen.2
  have hu : u.phase = p := (padTwins_eq State.phase h).trans ht
  rw [runSelected_congr (completion := completion) (ht ▸ hc), runSelected_congr (completion := completion) (hu ▸ hc)]
  exact padTwins_runSelected h

theorem padTwins_ustepWith {k : Kind} {n : BitVec 3} {micro : State → Micro} (hm : selectMicro k n = some micro)
    (h : PadTwins s c d w t u) :
    outcomesAgree (PadTwins s c d w) (ustepWith Config.timing k n micro t) (ustepWith Config.timing k n micro u) :=
  whenEnabled_agree (padTwins_eq (fun x => executes Config.timing x && kindOf x.phase == k && x.stepCnt == n) h)
    (fun _ => padTwins_runMicro hm h) h

theorem padTwins_wirebyteWith (place : Place) (b : Byte) (h : PadTwins s c d w t u) :
    outcomesAgree (PadTwins s c d w) (wirebyteWith Config.timing place b t) (wirebyteWith Config.timing place b u) :=
  whenEnabled_agree (padTwins_eq (fun x => executes Config.timing x && emitting place b x) h)
    (fun _ => padTwins_runSelected h) h

/-- Cases 1 to 3 of R108 neither read nor write the pads or the trace. -/
theorem quietTick_withPads (T : Timing) (x : State) (a b : Level) (l : List PinEvent) :
    quietTick T (x.withPads a b l) = (quietTick T x).withPads a b l := by
  show State.recordRet (if x.phase != .idle && watchdogExpired T x then (x.withPads a b l).takeWatchdog else x.withPads a b l) = _
  unfold quietTick
  split <;> rfl

theorem padTwins_tick (h : PadTwins s c d w t u) : outcomesAgree (PadTwins s c d w) (execTick t) (execTick u) :=
  whenEnabled_agree (padTwins_eq (executes Config.timing) h) (fun _ => padTwins_runSelected h)
    (padTwins_update (quietTick Config.timing) h (quietTick_withPads Config.timing))

/-- Twins perform every operation alike. -/
theorem padTwins_exec (i : Instr) (h : PadTwins s c d w t u) : outcomesAgree (PadTwins s c d w) (exec i t) (exec i u) := by
  cases i
  case nop | rsvd6 | rsvd7 => exact h
  case tick => exact padTwins_tick h
  case arm len pos seg =>
    exact whenEnabled_next_agree (padTwins_eq State.cmdReady h) (padTwins_update (·.armLoad len pos seg) h) h
  case clear => exact whenEnabled_next_agree (padTwins_eq State.cmdReady h) (padTwins_update (·.armLoad 4 0 0) h) h
  case setbr on level =>
    exact whenEnabled_next_agree (padTwins_eq State.cmdReady h)
      (padTwins_update (fun x => { x with bright := brightOf on level }) h) h
  case isidle => exact padTwins_update (fun x => { x with idleOut := some (idleOutput Config.timing x) }) h
  case armRelc =>
    exact whenEnabled_next_agree (padTwins_eq (·.pre == .relc) h)
      (padTwins_update (fun x => { x with pre := .reld }) (padTwins_drive h .clk .released)) h
  case armReld =>
    exact whenEnabled_next_agree (padTwins_eq (·.pre == .reld) h)
      (padTwins_update (fun x => { x with dlyUs := x.nowUs, pre := .strt }) (padTwins_drive h .dio .released)) h
  case armStrt =>
    exact whenEnabled_next_agree (padTwins_eq (fun x => x.pre == .strt && holdElapsed Config.timing.settleUs x) h)
      (padTwins_update (fun x => { x with dlyUs := x.nowUs, pre := .done }) (padTwins_drive h .dio .low)) h
  case armDone =>
    exact whenEnabled_next_agree (padTwins_eq (fun x => x.pre == .done && holdElapsed Config.timing.startUs x) h)
      (padTwins_update (fun x => { x with pre := .ready }) h) h
  case idle => exact whenEnabled_next_agree (padTwins_eq (·.phase == .idle) h) (padTwins_update State.recordRet h) h
  case p0Wrmode | p1Stop | p2Start | p3Wraddr | p4Wrdata | p5Stop | p6Start | p7Wrctrl | p8Stop =>
    exact padTwins_phaseWith (fun x hx => by simp [complete, hx]) h
  case cmdMode => exact padTwins_wirebyteWith .mode _ h
  case cmdAddr => exact padTwins_wirebyteWith .addr _ h
  case cmdCtrl => exact padTwins_wirebyteWith .ctrl _ h
  case data => exact padTwins_wirebyteWith .data _ h
  case b0Clklo | b1Dbit | b2Clkhi | b3Acklo | b4Ackrel | b5Ackhi | b6Ackend | s0Clkhi | s1Dhi | s2Dlo | t0Clklo | t1Dlo |
      t2Clkhi | t3Dhi =>
    simp only [exec]
    exact padTwins_ustepWith rfl h

end PadTwins

/-- What two machines that differ in the pads and the trace are after one step: twins still, or both reset. -/
def StepTwins (s : State) (c d : Level) (w : List PinEvent) (t u : State) : Prop :=
  PadTwins s c d w t u ∨ ((∃ rest, s.moves = .rst :: rest) ∧ t.wire = [] ∧ u = t)

/-- Two machines that differ in the pads and the trace take the same move and the same step. -/
theorem padTwins_step (s : State) (c d : Level) (w : List PinEvent) :
    outcomesAgree (StepTwins s c d w) (step s) (step (s.withPads c d w)) := by
  cases hm : s.moves with
  | nil =>
    rw [step_nil hm, step_nil (s := s.withPads c d w) hm]
    exact .inl (padTwins_update (·.consume []) (padTwins_start s c d w))
  | cons m rest =>
    have hm' : (s.withPads c d w).moves = m :: rest := hm
    have h := padTwins_update (·.consume rest) (padTwins_start s c d w)
    have operation : ∀ i, fetch m (s.consume rest) = .run i → fetch m ((s.withPads c d w).consume rest) = .run i →
        outcomesAgree (StepTwins s c d w) (step s) (step (s.withPads c d w)) := fun i hf hf' => by
      rw [step_run hm hf, step_run hm' hf']
      exact outcomesAgree_imp (fun _ _ => Or.inl) (padTwins_exec i h)
    cases m with
    | rst => rw [step_rst hm, step_rst hm']; exact .inr ⟨⟨rest, hm⟩, rfl, rfl⟩
    | time dUs dMs => rw [step_env hm rfl, step_env hm' rfl]; exact .inl (padTwins_update (·.advance dUs dMs) h)
    | receiver low => rw [step_env hm rfl, step_env hm' rfl]; exact .inl (padTwins_update (·.setReceiver low) h)
    | armseq =>
      cases hd : decodeArmseq s.pre.code with
      | ok i => exact operation i (by simp [fetch, hd]) (by simp [fetch, State.withPads, hd])
      | error =>
        rw [step_env (t := s.consume rest) hm (by simp [fetch, hd]),
          step_env (t := (s.withPads c d w).consume rest) hm' (by simp [fetch, State.withPads, hd])]
        exact .inl h
    | present x =>
      cases hd : decodeHostop x with
      | ok i => exact operation i (by simp [fetch, hd]) (by simp [fetch, hd])
      | error =>
        rw [step_stop (r := .notHostop) hm (by simp [fetch, hd]), step_stop (r := .notHostop) hm' (by simp [fetch, hd])]
        rfl
    | command op len pos seg on level => exact operation (decodeCommand op len pos seg on level) rfl rfl

/-- Settles O47: two machines that differ in the pads and the trace are twins with no event yet, and a step keeps them twins or
resets both. -/
theorem padsAndTraceAreNeverRead : Obligations.PadsAndTraceAreNeverRead := by
  intro s c d w
  refine outcomesAgree_imp ?_ (padTwins_step s c d w)
  rintro t u (⟨es, hwire, hclk, hdio, rfl⟩ | ⟨hrst, hwire, rfl⟩)
  · exact ⟨rfl, .inr ⟨es, hwire, rfl, hclk, hdio, rfl, rfl⟩⟩
  · exact ⟨rfl, .inl ⟨hrst, hwire, hwire, rfl, rfl⟩⟩

end Sys2Proof.Machine

/-! PROOFS. What a step runs (R58, R79, R82), the cycle of one command and one tick (R58, R185), and the data bits of a wire byte
(R52). -/

namespace Sys2Proof.Machine

open Sys2Proof.Safety

/-! ### The move a step takes -/

/-- A presented HOSTOP word is fetched as the operation it decodes to. -/
theorem fetch_present {w : BitVec 56} {i : Instr} (h : decodeHostop w = .ok i) (s : State) : fetch (.present w) s = .run i := by
  simp [fetch, h]

/-- ARMSEQ fetches the operation that the code in PRE decodes to. -/
theorem fetch_armseq {s : State} {i : Instr} (h : decodeArmseq s.pre.code = .ok i) : fetch .armseq s = .run i := by
  simp [fetch, h]

/-- PRE = 0 selects no sub-step. -/
theorem fetch_armseq_ready {s : State} (h : s.pre = .ready) : fetch .armseq s = .env s := by
  simp [fetch, h, Pre.code, decodeArmseq]

/-- Settles O4: each clause is what the fetch of its move answers. -/
theorem stepRunsTheDecodedOperation : Obligations.StepRunsTheDecodedOperation :=
  ⟨fun _ _ _ _ hm hd => step_run hm (fetch_present hd _), fun _ _ _ hm hd => step_run hm (fetch_armseq hd),
    fun _ _ hm hp => step_env hm (fetch_armseq_ready hp), fun _ _ _ _ _ _ _ _ hm => step_run hm rfl, fun _ hm => step_nil hm⟩

/-! ### Executed ticks with a known micro-step -/

/-- An executed tick whose micro-step puts `v` on `p` and goes on to STEP `n`. -/
theorem runSelected_advance {s : State} {micro : State → Micro} {p : Pin} {v : Level} {n : BitVec 3}
    (hm : selectMicro (kindOf s.phase) s.stepCnt = some micro)
    (hmicro : micro { s with lastUs := s.nowUs } = ({ { s with lastUs := s.nowUs }.drive p v with stepCnt := n }, false)) :
    runSelected complete s = .next { ticked s p v false with stepCnt := n } := by
  have hactive : (s.phase == .idle) = false := beq_false_of_ne (phase_ne_idle_of_selectMicro hm)
  simp only [runSelected, hm]
  rw [runMicro_notDone hmicro]
  cases p <;> simp [State.recordRet, ticked, State.drive, hactive]

/-- The executed tick at B0 (R141). -/
theorem runSelected_b0 {s : State} (hk : kindOf s.phase = .byte) (hn : s.stepCnt = 0) :
    runSelected complete s = .next { ticked s .clk .low false with stepCnt := 1 } :=
  runSelected_advance (micro := microB0) (by rw [hk, hn]; rfl) rfl

/-- The executed tick at B1 (R142). -/
theorem runSelected_b1 {s : State} (hk : kindOf s.phase = .byte) (hn : s.stepCnt = 1) :
    runSelected complete s = .next { ticked s .dio (levelOfBit (s.byte.getLsbD 0)) false with stepCnt := 2 } :=
  runSelected_advance (micro := microB1) (by rw [hk, hn]; rfl) rfl

/-! ### The cycle of an ARM and a tick request (R58, R185) -/

/-- Right after the arming no time has passed, so the watchdog does not hold and a tick executes only without a minimum
interval. -/
theorem executing_at_arming_iff {s : State} (hphase : s.phase = .p0) (hus : s.lastUs = s.nowUs) (hms : s.startMs = s.nowMs) :
    Executing s ↔ Config.timing.minUs = 0 := by
  simp [Executing, hphase, hus, hms, BitVec.le_def, BitVec.toNat_eq]

/-- A TICK right after the arming is an executed B0, or too early (R108 cases 4 and 3). -/
theorem execTick_at_arming {s : State} (hphase : s.phase = .p0) (hstep : s.stepCnt = 0) (hus : s.lastUs = s.nowUs)
    (hms : s.startMs = s.nowMs) :
    execTick s = .next (if Config.timing.minUs = 0 then { ticked s .clk .low false with stepCnt := 1 }
      else { s with tickRet := some false }) := by
  have hiff := executing_at_arming_iff hphase hus hms
  split
  next hmin => rw [execTick_executing (hiff.mpr hmin), runSelected_b0 (by rw [hphase]; rfl) hstep]
  next hmin =>
    have hwatch : ¬ WatchdogHolds s := by simp [WatchdogHolds, hms, BitVec.lt_def]
    rw [execTick_quiet (mt hiff.mp hmin)]
    rcases quietTick_eq s with ⟨-, hq⟩ | ⟨hw, -⟩
    · simp [hq, State.recordRet, hphase]
    · exact absurd hw hwatch

/-- A run of one step more takes that step first. -/
theorem run_succ {s t : State} (h : step s = .next t) (n : Nat) : run (n + 1) s = run n t := by
  have hcore : Sys2Proof.core.step s = .next t := h
  simp only [run, Host.Core.run, hcore]
  rfl

/-- An ARM on the command port with PRE = 0 loads (R79, R101). -/
theorem step_command_arm {s : State} {rest : List Move} {len pos : BitVec 8} {seg : BitVec 32} {on : BitVec 1} {level : BitVec 3}
    (hm : s.moves = .command 2 len pos seg on level :: rest) (hp : s.pre = .ready) :
    step s = .next ((s.consume rest).armLoad len pos seg) := by
  rw [step_run (i := .arm len pos seg) hm rfl]
  simp [exec, execArm, whenReady, hp]

/-- ARMSEQ with PRE = 1 releases the clock line (R82, R102). -/
theorem step_armseq_relc {s : State} {rest : List Move} (hm : s.moves = .armseq :: rest) (hp : s.pre = .relc) :
    step s = .next { (s.consume rest).drive .clk .released with pre := .reld } := by
  rw [step_run (i := .armRelc) hm (fetch_armseq (by simp only [State.consume_pre, hp]; rfl))]
  simp [exec, execArmRelc, hp]

/-- A tick request is a TICK (R79). -/
theorem step_present_tick {s : State} {rest : List Move} (hm : s.moves = .present tickWord :: rest) :
    step s = execTick (s.consume rest) := step_run (i := .tick) hm (fetch_present (by decide) _)

/-- A cycle with a command and a tick request is three moves (log 14). -/
theorem portMoves_command_tick {p : Ports} (hrst : p.rst = false) (hcmd : p.cmdValid = true) (htick : p.tickReq = true) :
    portMoves p = [.command p.cmdOp p.armLen p.armPos p.armSeg p.brOn p.brLevel, .armseq, .present tickWord] := by
  simp [portMoves, hrst, hcmd, htick]

/-- Settles O7: the ARM loads and sets PRE to 1, ARMSEQ performs RELC in the armed state, and the TICK finds no time passed since
the arming. -/
theorem oneCycleServesCommandThenArmseqThenTick : Obligations.OneCycleServesCommandThenArmseqThenTick := by
  intro s p rest hrst hcmd hop htick hpre hmoves
  rw [portMoves_command_tick hrst hcmd htick, hop] at hmoves
  refine ⟨_, (run_succ (step_command_arm hmoves hpre) 2).trans ((run_succ (step_armseq_relc rfl rfl) 1).trans
    (run_succ ((step_present_tick rfl).trans (execTick_at_arming rfl rfl rfl rfl)) 0)), ?_⟩
  split <;> simp [ticked]

/-! ### The data bits of a wire byte (R52, R142) -/

/-- The row of a byte at B1 puts the bit of the byte whose number BITCNT holds on the data line. -/
theorem exec_wirebyte_b1 {s : State} {place : Place} {w : Byte} {i : Instr} (he : Executing s) (hstep : s.stepCnt = 1)
    (hd : decodeWirebyte place w = .ok i) (hp : s.phase = phaseOfPlace place) (hb : s.byte = w >>> s.bitcnt.toNat) :
    exec i s =
      .next { ticked s .dio (if w.getLsbD s.bitcnt.toNat then .released else .low) false with stepCnt := 2 } := by
  have hkind : kindOf s.phase = .byte := by rw [hp]; cases place <;> rfl
  have hbit : s.byte.getLsbD 0 = w.getLsbD s.bitcnt.toNat := by simp [hb]
  rw [exec_of_decodeWirebyte hd, wirebyteWith_enabled he hp hb, runSelected_b1 hkind hstep, hbit]
  rfl

/-- Settles O31: each of the four rows is its byte's emission at its place, and BYTE holds the byte less the bits already sent. -/
theorem wireBytesGoOutLeastSignificantBitFirst : Obligations.WireBytesGoOutLeastSignificantBitFirst := fun _ he _ hstep =>
  ⟨exec_wirebyte_b1 (place := .mode) he hstep rfl,
    fun pos => exec_wirebyte_b1 (place := .addr) he hstep (decodeWirebyte_addr pos),
    fun _ => exec_wirebyte_b1 (place := .data) he hstep rfl,
    fun on level => exec_wirebyte_b1 (place := .ctrl) he hstep (decodeWirebyte_ctrl on level)⟩

end Sys2Proof.Machine

/-! PROOFS. BRIGHT is read by the completion of phase 5 only (R62): two machines that differ in BRIGHT take the same step. -/

namespace Sys2Proof.Machine

open Sys2Proof.Safety

/-! ### Steps that carry a change of the state along -/

/-- The outcome with its next state changed. -/
def mapNext (f : State → State) : Outcome → Outcome
  | .next t => .next (f t)
  | .fault e => .fault e
  | .refused r => .refused r

/-- An outcome agrees with its changed one where the change relates every state to its image. -/
theorem outcomesAgree_mapNext {R : State → State → Prop} {f : State → State} (h : ∀ x, R x (f x)) (o : Outcome) :
    outcomesAgree R o (mapNext f o) := by
  cases o
  case next t => exact h t
  all_goals rfl

/-- A change that the condition does not see is carried along by a step that happens only when enabled. -/
theorem whenEnabled_mapNext (f : State → State) (c : Bool) (o : Outcome) (s : State) :
    whenEnabled c (mapNext f o) (f s) = mapNext f (whenEnabled c o s) := by
  cases c <;> simp [mapNext]

/-- A change that the micro-step, the completion action it leads to, and `ret` carry along is carried along by the executed
tick. -/
theorem runMicro_mapNext {f : State → State} {micro : State → Micro} {completion : State → Outcome} {s : State}
    (hmicro : micro { f s with lastUs := (f s).nowUs } =
      (f (micro { s with lastUs := s.nowUs }).1, (micro { s with lastUs := s.nowUs }).2))
    (hcomplete : (micro { s with lastUs := s.nowUs }).2 = true →
      completion (f (micro { s with lastUs := s.nowUs }).1) = mapNext f (completion (micro { s with lastUs := s.nowUs }).1))
    (hret : ∀ x : State, (f x).recordRet = f x.recordRet) :
    runMicro micro completion (f s) = mapNext f (runMicro micro completion s) := by
  simp only [runMicro, hmicro]
  cases hdone : (micro { s with lastUs := s.nowUs }).2
  case false => exact congrArg Host.Outcome.next (hret _)
  case true =>
    simp only [if_true, hcomplete hdone]
    cases completion (micro { s with lastUs := s.nowUs }).1
    case next t => exact congrArg Host.Outcome.next (hret t)
    all_goals rfl

/-- A micro-step that is done was the last of its sub-machine (R38). -/
theorem step_eq_lastStep_of_done {k : Kind} {n : BitVec 3} {micro : State → Micro} (hm : selectMicro k n = some micro) {s : State}
    (hdone : (micro s).2 = true) : n = lastStep k := by
  cases selectMicro_form hm with
  | advance => exact absurd hdone nofun
  | shift => exact absurd hdone nofun
  | last => rfl

/-! ### One step of two machines that take the same move -/

/-- The operations that a move can bring: those of the levels HOSTOP and ARMSEQ (R79, R82). -/
def Movable (i : Instr) : Prop := (∃ w, encode i = .hostop w) ∨ ∃ w, encode i = .armseq w

theorem movable_of_decodeHostop {w : BitVec 56} {i : Instr} (h : decodeHostop w = .ok i) : Movable i := by
  unfold decodeHostop at h
  split at h
  next => split at h <;> cases h <;> exact .inl ⟨_, rfl⟩
  next => cases h

theorem movable_of_decodeArmseq {w : BitVec 3} {i : Instr} (h : decodeArmseq w = .ok i) : Movable i := by
  unfold decodeArmseq at h
  split at h <;> cases h <;> exact .inr ⟨_, rfl⟩

theorem movable_decodeCommand (op : BitVec 3) (len pos : BitVec 8) (seg : BitVec 32) (on : BitVec 1) (level : BitVec 3) :
    Movable (decodeCommand op len pos seg on level) := by
  unfold decodeCommand
  split <;> exact .inl ⟨_, rfl⟩

/-- Two machines with the same moves to come and the same PRE take steps that agree, if they do after each change of the
environment and each operation that a move can bring. -/
theorem step_agree {R : State → State → Prop} {s u : State} (hmoves : u.moves = s.moves) (hpre : u.pre = s.pre)
    (consume : ∀ rest, R (s.consume rest) (u.consume rest))
    (construct : ∀ rest, R (s.consume rest).construct (u.consume rest).construct)
    (advance : ∀ rest dUs dMs, R ((s.consume rest).advance dUs dMs) ((u.consume rest).advance dUs dMs))
    (setReceiver : ∀ rest low, R ((s.consume rest).setReceiver low) ((u.consume rest).setReceiver low))
    (operation : ∀ i rest, Movable i → outcomesAgree R (exec i (s.consume rest)) (exec i (u.consume rest))) :
    outcomesAgree R (step s) (step u) := by
  cases hm : s.moves with
  | nil =>
    rw [step_nil hm, step_nil (hmoves.trans hm)]
    exact consume []
  | cons m rest =>
    have hm' := hmoves.trans hm
    cases m with
    | rst => rw [step_rst hm, step_rst hm']; exact construct rest
    | time dUs dMs => rw [step_env hm rfl, step_env hm' rfl]; exact advance rest dUs dMs
    | receiver low => rw [step_env hm rfl, step_env hm' rfl]; exact setReceiver rest low
    | armseq =>
      cases hd : decodeArmseq s.pre.code with
      | ok i =>
        rw [step_run hm (fetch_armseq hd), step_run hm' (fetch_armseq (hpre ▸ hd))]
        exact operation i rest (movable_of_decodeArmseq hd)
      | error e =>
        rw [step_env (t := s.consume rest) hm (by simp [fetch, hd]),
          step_env (t := u.consume rest) hm' (by simp [fetch, hpre, hd])]
        exact consume rest
    | present w =>
      cases hd : decodeHostop w with
      | ok i =>
        rw [step_run hm (fetch_present hd _), step_run hm' (fetch_present hd _)]
        exact operation i rest (movable_of_decodeHostop hd)
      | error e =>
        rw [step_stop (r := .notHostop) hm (by simp [fetch, hd]), step_stop (r := .notHostop) hm' (by simp [fetch, hd])]
        rfl
    | command op len pos seg on level =>
      rw [step_run hm rfl, step_run hm' rfl]
      exact operation _ rest (movable_decodeCommand op len pos seg on level)

/-! ### Machines that differ in BRIGHT -/

/-- The same machine with another brightness. -/
def State.withBright (s : State) (b : BitVec 4) : State := { s with bright := b }

/-- The two machines are equal but for BRIGHT. -/
def BrightTwins (t u : State) : Prop := u = { t with bright := u.bright }

/-- Another brightness is carried along by every micro-step. -/
theorem selectMicro_withBright {k : Kind} {n : BitVec 3} {micro : State → Micro} (hm : selectMicro k n = some micro) (s : State)
    (b : BitVec 4) : micro (s.withBright b) = ((micro s).1.withBright b, (micro s).2) := by
  cases selectMicro_form hm with
  | advance p v => cases p <;> rfl
  | shift => rfl
  | last p v => cases p <;> rfl

/-- The completion action of no phase but 5 reads BRIGHT (R126). -/
theorem complete_withBright {s : State} (h : s.phase ≠ .p5) (b : BitVec 4) :
    complete (s.withBright b) = mapNext (·.withBright b) (complete s) := by
  have hphase : (s.withBright b).phase = s.phase := rfl
  simp only [complete, hphase]
  cases hp : s.phase <;> simp only []
  case p4 =>
    by_cases hmore : s.idx.toNat + 1 < s.len.toNat
    · cases hread : memRead s.seg (s.idx.toNat + 1) <;> simp [completeP4, State.withBright, mapNext, hmore, hread]
    · simp [completeP4, State.withBright, mapNext, hmore]
  case p5 => exact absurd hp h
  all_goals rfl

/-- An executed tick that does not complete phase 5 carries another brightness along. -/
theorem runSelected_withBright {s : State} (h : ¬ (s.phase = .p5 ∧ s.stepCnt = 3)) (b : BitVec 4) :
    runSelected complete (s.withBright b) = mapNext (·.withBright b) (runSelected complete s) := by
  have hsel : selectMicro (kindOf (s.withBright b).phase) (s.withBright b).stepCnt = selectMicro (kindOf s.phase) s.stepCnt := rfl
  simp only [runSelected, hsel]
  cases hm : selectMicro (kindOf s.phase) s.stepCnt with
  | none => rfl
  | some micro =>
    refine runMicro_mapNext (f := (·.withBright b)) (selectMicro_withBright hm { s with lastUs := s.nowUs } b)
      (fun hdone => complete_withBright (fun hp => h ?_) b) fun _ => rfl
    obtain ⟨p, v, hf⟩ := selectMicro_frame hm { s with lastUs := s.nowUs }
    have hphase : s.phase = .p5 := by rw [hf] at hp; simpa using hp
    exact ⟨hphase, by rw [step_eq_lastStep_of_done hm hdone, hphase]; rfl⟩

/-- Cases 1 to 3 of R108 do not read BRIGHT. -/
theorem quietTick_withBright (T : Timing) (s : State) (b : BitVec 4) :
    quietTick T (s.withBright b) = (quietTick T s).withBright b := by
  show State.recordRet (if s.phase != .idle && watchdogExpired T s then _ else _) = _
  unfold quietTick
  split <;> rfl

theorem execTick_withBright {s : State} (h : ¬ (s.phase = .p5 ∧ s.stepCnt = 3)) (b : BitVec 4) :
    execTick (s.withBright b) = mapNext (·.withBright b) (execTick s) := by
  have hen : executes Config.timing (s.withBright b) = executes Config.timing s := rfl
  rw [execTick, tickWith, hen, runSelected_withBright h, quietTick_withBright, whenEnabled_mapNext (·.withBright b)]
  rfl

/-- No operation that a move can bring reads BRIGHT but the TICK that completes phase 5, and SETBR makes the two machines
equal. -/
theorem exec_brightTwins {i : Instr} (hi : Movable i) {s : State} (h : ¬ (s.phase = .p5 ∧ s.stepCnt = 3)) (b : BitVec 4) :
    outcomesAgree BrightTwins (exec i s) (exec i (s.withBright b)) := by
  cases i
  case nop | rsvd6 | rsvd7 | isidle => rfl
  case tick =>
    show outcomesAgree BrightTwins (execTick s) (execTick (s.withBright b))
    rw [execTick_withBright h]
    exact outcomesAgree_mapNext (R := BrightTwins) (f := (·.withBright b)) (fun _ => rfl) _
  case arm | clear | setbr | armRelc | armReld | armStrt | armDone => exact whenEnabled_next_agree rfl rfl rfl
  -- The rows of the other three levels are brought by no move.
  all_goals rcases hi with ⟨_, hw⟩ | ⟨_, hw⟩ <;> cases hw

/-- Settles O48: the two machines take the same move, and no operation that it brings reads BRIGHT. -/
theorem brightIsSampledOnlyAtTheEndOfPhase5 : Obligations.BrightIsSampledOnlyAtTheEndOfPhase5 := fun s b h =>
  step_agree (u := s.withBright b) rfl rfl (fun _ => rfl) (fun _ => rfl) (fun _ _ _ => rfl) (fun _ _ => rfl)
    fun _ rest hi => exec_brightTwins (s := s.consume rest) hi h b

end Sys2Proof.Machine

/-! PROOFS. The encoder and the decoder of the five levels (R70, R73 to R83), and the table word that the host places (log 13). -/

namespace Sys2Proof.Machine

open Sys2Proof.Safety

/-! ### Decoding what the encoder makes -/

/-- The word of an ARM decodes to it (R79). -/
theorem decodeHostop_hostopWord_arm (len pos : BitVec 8) (seg : BitVec 32) :
    decodeHostop (hostopWord 2 (len ++ pos ++ seg)) = .ok (.arm len pos seg) := by
  obtain ⟨hlen, hpos, hseg⟩ := armOperands_fields len pos seg
  simp only [decodeHostop, hostopWord_zeroField, hostopWord_op, hostopWord_field _ _ 40 8 (by omega),
    hostopWord_field _ _ 32 8 (by omega), hostopWord_field _ _ 0 32 (by omega), hlen, hpos, hseg]
  rfl

/-- The word of a SETBR decodes to it (R79, R81). -/
theorem decodeHostop_hostopWord_setbr (on : BitVec 1) (level : BitVec 3) :
    decodeHostop (hostopWord 4 ((brightOf on level).setWidth 48)) = .ok (.setbr on level) := by
  revert on level
  decide

/-- Settles O1: the words of ARM and SETBR carry their operands in the fields the decoder reads, the command bytes carry theirs in
their low bits, and every other code is one word. -/
theorem encodedOperationDecodesToItself : Obligations.EncodedOperationDecodesToItself := by
  intro i
  cases i
  case arm len pos seg => exact decodeHostop_hostopWord_arm len pos seg
  case setbr on level => exact decodeHostop_hostopWord_setbr on level
  case cmdAddr pos => exact decodeWirebyte_addr pos
  case cmdCtrl on level => exact decodeWirebyte_ctrl on level
  case data => rfl
  all_goals decide

/-! ### The codes that decode -/

/-- A HOSTOP word decodes exactly when bits 52:48 are zero: every op has a meaning (R79). -/
theorem exists_decodeHostop_iff (w : BitVec 56) : (∃ i, decodeHostop w = .ok i) ↔ w.extractLsb' 48 5 = 0 := by
  unfold decodeHostop
  split
  next hz => exact ⟨fun _ => hz, fun _ => by split <;> exact ⟨_, rfl⟩⟩
  next hz => exact ⟨nofun, fun h => absurd h hz⟩

/-- A byte decodes at its place exactly when it is one that is emitted there (R73 to R76). -/
theorem exists_decodeWirebyte_iff (place : Place) (w : Byte) :
    (∃ i, decodeWirebyte place w = .ok i) ↔ (Code.wirebyte place w).wellFormed = true := by
  cases place <;> simp only [decodeWirebyte, Code.wellFormed, beq_iff_eq]
  case data => exact ⟨fun _ => trivial, fun _ => ⟨_, rfl⟩⟩
  all_goals
    split
    next hw => exact ⟨fun _ => hw, fun _ => ⟨_, rfl⟩⟩
    next hw => exact ⟨nofun, fun h => absurd h hw⟩

/-- Decoding answers an operation exactly when it is no rejection. -/
theorem exists_eq_ok_iff_isOk {o : Except Reject Instr} : (∃ i, o = .ok i) ↔ o.isOk = true := by
  cases o
  case ok i => exact ⟨fun _ => rfl, fun _ => ⟨i, rfl⟩⟩
  case error => exact ⟨nofun, nofun⟩

/-- The codes of the register levels are few, and each is checked (R77, R78, R82, R83). -/
theorem decodeArmseq_isOk : ∀ w : BitVec 3, (decodeArmseq w).isOk = (Code.armseq w).wellFormed := by decide
theorem decodePhase_isOk : ∀ w : BitVec 4, (decodePhase w).isOk = (Code.phase w).wellFormed := by decide
theorem decodeUstep_isOk : ∀ w : BitVec 5, (decodeUstep w).isOk = (Code.ustep w).wellFormed := by decide

/-- Settles O2: level by level, the code is refused exactly where the ranges of R73 to R82 end. -/
theorem decoderAcceptsExactlyTheSpecsCodes : Obligations.DecoderAcceptsExactlyTheSpecsCodes := by
  intro c
  cases c <;> simp only [decode]
  case hostop w => rw [exists_decodeHostop_iff]; exact beq_iff_eq
  case armseq w => rw [exists_eq_ok_iff_isOk, decodeArmseq_isOk]
  case phase w => rw [exists_eq_ok_iff_isOk, decodePhase_isOk]
  case ustep w => rw [exists_eq_ok_iff_isOk, decodeUstep_isOk]
  case wirebyte place w => exact (exists_decodeWirebyte_iff place w).symm

/-- Settles O3: every word is decoded by evaluation. -/
theorem wordsOfTheTablesDecode : Obligations.WordsOfTheTablesDecode := by
  unfold Obligations.WordsOfTheTablesDecode
  decide

/-! ### The operation each level selects -/

/-- Settles O20: where a tick executes, TICK and every row that the registers select are the one executed tick. -/
theorem executedTickIsTheOperationEachLevelSelects : Obligations.ExecutedTickIsTheOperationEachLevelSelects := by
  intro s he
  have same : ∀ {i : Instr}, Selected i s → exec .tick s = exec i s := fun hi =>
    (exec_of_executesTick ⟨he, .inl rfl⟩).trans (exec_of_executesTick ⟨he, hi⟩).symm
  exact ⟨fun i hd => same (.inr (.inr (.inl hd))), fun i hd => same (.inr (.inl hd)),
    fun place w i hp hb hd => same (.inr (.inr (.inr ⟨place, w, hp, hb, hd⟩)))⟩

/-! ### Placing a code -/

/-- The phase in which a USTEP code of a kind is placed has that kind. -/
theorem kindOf_placed (p : Phase) (k : Kind) : kindOf (if kindOf p = k then p else firstPhaseOfKind k) = k := by
  split
  next h => exact h
  next => cases k <;> rfl

/-- A PRE code that selects a sub-step is a value of PRE (R34, R82). -/
theorem preOfCode_of_decodeArmseq {w : BitVec 3} {i : Instr} (h : decodeArmseq w = .ok i) :
    ∃ p : Pre, preOfCode w = some p ∧ p.code = w := by
  unfold decodeArmseq at h
  split at h <;> cases h
  case h_1 hw => exact ⟨.relc, by simp [preOfCode, hw], BitVec.eq_of_toNat_eq hw.symm⟩
  case h_2 hw => exact ⟨.reld, by simp [preOfCode, hw], BitVec.eq_of_toNat_eq hw.symm⟩
  case h_3 hw => exact ⟨.strt, by simp [preOfCode, hw], BitVec.eq_of_toNat_eq hw.symm⟩
  case h_4 hw => exact ⟨.done, by simp [preOfCode, hw], BitVec.eq_of_toNat_eq hw.symm⟩

/-- A PHASE code that decodes is the number of a phase, and it is the sentinel's row for the sentinel only (R22, R77). -/
theorem phaseOfCode_of_decodePhase {w : BitVec 4} {i : Instr} (h : decodePhase w = .ok i) :
    ∃ p : Phase, phaseOfCode w = some p ∧ p.code = w ∧ (p = .idle → i = .idle) := by
  by_cases hi : i = .idle
  · subst hi
    have hw : w = Phase.idle.code := by revert w; decide
    exact ⟨.idle, by rw [hw, phaseOfCode_code], hw.symm, fun _ => rfl⟩
  · obtain ⟨p, -, rfl, -, -⟩ := exec_of_decodePhase h hi
    refine ⟨p, phaseOfCode_code p, rfl, ?_⟩
    rintro rfl
    cases h
    rfl

/-- Placed where a tick executes, a selected operation is what the next step, the presented TICK, performs. -/
theorem step_readyToTick {s : State} {i : Instr} (hp : s.phase ≠ .idle)
    (hi : Selected i (s.readyToTick.consume s.moves)) :
    step s.readyToTick = exec i (s.readyToTick.consume s.moves) := by
  have he : Executing (s.readyToTick.consume s.moves) := executing_of_longest hp rfl rfl
  rw [step_present_tick rfl, exec_of_executesTick ⟨he, hi⟩]
  exact execTick_executing he


/-- A code that decodes is, once placed, what the next step runs. -/
theorem step_place (s : State) {c : Code} {i : Instr} (h : decode c = .ok i) :
    step (s.place c) = exec i ((s.place c).consume s.moves) := by
  cases c <;> simp only [decode] at h <;> simp only [State.place]
  case hostop w => exact step_run rfl (fetch_present h _)
  case armseq w =>
    obtain ⟨p, hp, hcode⟩ := preOfCode_of_decodeArmseq h
    simp only [hp]
    exact step_run rfl (fetch_armseq (by rw [← hcode] at h; exact h))
  case phase w =>
    obtain ⟨p, hp, rfl, hidle⟩ := phaseOfCode_of_decodePhase h
    simp only [hp]
    by_cases hi : p = .idle
    · rw [step_present_tick rfl, hidle hi, exec_idle_enabled hi]
      exact execTick_idle hi
    · exact step_readyToTick hi (.inr (.inl h))
  case ustep w =>
    obtain ⟨k, n, micro, rfl, hm, -⟩ := exec_of_decodeUstep h
    have hkind : kindOfCode ((ustepWord k n).extractLsb' 3 2) = k := (ustepWord_injective (ustepWord_fields _)).1
    have hstep : (ustepWord k n).extractLsb' 0 3 = n := (ustepWord_injective (ustepWord_fields _)).2
    have hphase := kindOf_placed s.phase k
    rw [hkind, hstep]
    refine step_readyToTick (phase_ne_idle_of_selectMicro (n := n) (by rw [hphase]; exact hm)) (.inr (.inr (.inl ?_)))
    simpa [State.ustepCode, hphase] using h
  case wirebyte place w =>
    refine step_readyToTick ?_ (.inr (.inr (.inr ⟨place, w, rfl, by simp, h⟩)))
    cases place <;> nofun

/-- A table word that decodes is a code, and its operation is the one that code decodes to. -/
theorem code_of_decodeTableWord {nbits w : Nat} {i : Instr} (h : decodeTableWord nbits w = some i) :
    ∃ c, codeOfTableWord nbits w = some c ∧ decode c = .ok i := by
  cases hc : codeOfTableWord nbits w with
  | none =>
    simp only [decodeTableWord, hc] at h
    cases h
  | some c =>
    simp only [decodeTableWord, hc] at h
    refine ⟨c, rfl, ?_⟩
    cases hd : decode c <;> rw [hd] at h <;> cases h
    rfl

theorem withFetchWord_of_code {nbits w : Nat} {c : Code} (h : codeOfTableWord nbits w = some c) (s : State) :
    s.withFetchWord nbits w = s.place c := by
  simp only [State.withFetchWord, h]

/-- Settles O5: a table word decodes as the code it is placed as. -/
theorem placedTableWordRunsNext : Obligations.PlacedTableWordRunsNext := by
  intro s nbits w i h
  obtain ⟨c, hc, hd⟩ := code_of_decodeTableWord h
  rw [withFetchWord_of_code hc]
  exact step_place s hd

/-! ### The host operations and the arming sub-steps -/

/-- The clamped length in numbers (R80). -/
theorem clampLen_toNat (len : BitVec 8) :
    (clampLen len).toNat = if 4 < len.toNat then 4 else if len.toNat = 0 then 1 else len.toNat := by
  have hzero : len = 0 ↔ len.toNat = 0 := BitVec.toNat_eq
  simp only [clampLen, hzero]
  split
  · rfl
  · split
    · rfl
    · rw [BitVec.toNat_setWidth]
      omega

/-- ARM is accepted with PRE = 0 only (R101). -/
theorem exec_arm_ready {s : State} (h : s.pre = .ready) (len pos : BitVec 8) (seg : BitVec 32) :
    exec (.arm len pos seg) s = .next (s.armLoad len pos seg) := by
  simp [exec, execArm, whenReady, h]

/-- Right after ARM.LOAD the `idle` output is 0: PHASE is 0 and no time has passed (R40). -/
theorem idleOutput_armLoad (s : State) (len pos : BitVec 8) (seg : BitVec 32) :
    idleOutput Config.timing (s.armLoad len pos seg) = false := by
  rw [Bool.eq_false_iff, Ne, idleOutput_iff]
  simp [BitVec.lt_def]

/-- Settles O10: ARM.LOAD writes the assembled operands, and the four stores read back as they were written. -/
theorem armLoadsAndStartsTheArming : Obligations.ArmLoadsAndStartsTheArming := by
  intro s len pos seg
  refine ⟨fun h => by simp [exec, execArm, whenReady, h], fun h => ⟨_, exec_arm_ready h len pos seg, rfl, clampLen_toNat len,
    BitVec.toNat_setWidth 2 pos, fun hm i hi => memRead_memFill _ hm hi, memFill_wf _, idleOutput_armLoad s len pos seg⟩⟩

/-- Settles O12: BRIGHT is the on flag above the level. -/
theorem setbrWritesBrightOnly : Obligations.SetbrWritesBrightOnly := by
  intro s on level
  have hfields : (brightOf on level).extractLsb' 3 1 = on ∧ (brightOf on level).extractLsb' 0 3 = level := by
    revert on level
    decide
  exact ⟨fun h => ⟨{ s with bright := brightOf on level }, by simp [exec, execSetbr, whenReady, h], rfl, hfields⟩,
    fun h => by simp [exec, execSetbr, whenReady, h]⟩


/-- The sub-steps that wait for their hold are enabled when PRE selects them and the hold has elapsed (R104, R105). -/
theorem exec_armStrt (s : State) : exec .armStrt s =
    if s.pre = .strt ∧ Config.timing.settleUs ≤ s.nowUs - s.dlyUs then
      .next { s.drive .dio .low with dlyUs := s.nowUs, pre := .done }
    else .next s := by
  simp [exec, execArmStrt, armStrtWith, whenEnabled_eq, holdElapsed_iff]

theorem exec_armDone (s : State) : exec .armDone s =
    if s.pre = .done ∧ Config.timing.startUs ≤ s.nowUs - s.dlyUs then .next { s with pre := .ready } else .next s := by
  simp [exec, execArmDone, armDoneWith, whenEnabled_eq, holdElapsed_iff]

/-- The other two are enabled by PRE alone (R102, R103). -/
theorem exec_armRelc (s : State) : exec .armRelc s =
    if s.pre = .relc then .next { s.drive .clk .released with pre := .reld } else .next s := by
  simp [exec, execArmRelc, whenEnabled_eq]

theorem exec_armReld (s : State) : exec .armReld s =
    if s.pre = .reld then .next { s.drive .dio .released with dlyUs := s.nowUs, pre := .strt } else .next s := by
  simp [exec, execArmReld, whenEnabled_eq]

/-- Settles O16: each sub-step is one step that happens only when enabled, by PRE and by its hold. -/
theorem armingSubStepsActAsTabled : Obligations.ArmingSubStepsActAsTabled :=
  ⟨rfl, rfl, rfl, rfl, fun s => ⟨exec_armRelc s, exec_armReld s, exec_armStrt s, exec_armDone s⟩⟩

end Sys2Proof.Machine

/-! PROOFS. What the executed ticks of a transmission put on the wire (R71, R72, R148, R168, R131), by the registers alone, and a
run of ticks that puts it there (R87). -/

namespace Sys2Proof.Machine

open Sys2Proof.Safety

/-! ### Executed ticks by the registers they read -/

/-- The registers of `s` with the pads, the trace, the clocks, the moves and the outputs of `u`: what an executed tick neither
reads nor keeps comes from `u`. -/
def State.amid (s u : State) : State :=
  { s with
    clk := u.clk, dio := u.dio, wire := u.wire, lastUs := u.lastUs, nowUs := u.nowUs, moves := u.moves, tickRet := u.tickRet,
    idleOut := u.idleOut }

/-- The state of an executed tick that put the event `e` on the wire: the pad and the trace, LAST_US and `ret`. -/
def State.emit (s : State) (e : PinEvent) : State := { s.drive e.pin e.level with lastUs := s.nowUs }.recordRet

/-- Whatever surrounds the registers of `s`, an executed tick puts `e` on the wire and leaves the registers of `t`. -/
def TickSends (e : PinEvent) (s t : State) : Prop := ∀ u : State, runSelected complete (s.amid u) = .next ((t.amid u).emit e)

/-- One executed tick for each event leads from the registers of `s` to those of `t`. -/
inductive Sends : List PinEvent → State → State → Prop where
  | nil (s : State) : Sends [] s s
  | cons {e : PinEvent} {es : List PinEvent} {s t u : State} (h : TickSends e s t) (hs : Sends es t u) : Sends (e :: es) s u

theorem Sends.append {es fs : List PinEvent} {s t u : State} (h : Sends es s t) (h' : Sends fs t u) : Sends (es ++ fs) s u := by
  induction h with
  | nil => exact h'
  | cons he _ ih => exact .cons he (ih h')

/-- A completion action reads and writes registers only (R120). -/
theorem afterCompletion_amid (s u : State) : afterCompletion (s.amid u) = (afterCompletion s).amid u := by
  have hphase : (s.amid u).phase = s.phase := rfl
  simp only [afterCompletion, hphase]
  cases s.phase <;> simp only []
  case p4 => by_cases hmore : s.idx.toNat + 1 < s.len.toNat <;> simp [State.amid, hmore]
  all_goals rfl

theorem complete_amid {s : State} (hlen : s.len.toNat ≤ 4) (u : State) :
    complete (s.amid u) = .next ((afterCompletion s).amid u) := by
  have hlen' : (s.amid u).len.toNat ≤ 4 := hlen
  rw [complete_eq_afterCompletion hlen', afterCompletion_amid]

/-- The micro-step selected depends on the registers only. -/
theorem runSelected_amid {s : State} {micro : State → Micro} (hm : selectMicro (kindOf s.phase) s.stepCnt = some micro)
    (u : State) : runSelected complete (s.amid u) = runMicro micro complete (s.amid u) := by
  have hsel : selectMicro (kindOf (s.amid u).phase) (s.amid u).stepCnt = some micro := hm
  simp only [runSelected, hsel]

/-- A micro-step that puts `v` on `p` and goes on, with its BYTE, BITCNT and STEP. -/
theorem tickSends_goesOn {s : State} {micro : State → Micro} {p : Pin} {v : Level} {b : Byte} {c : BitVec 4} {n : BitVec 3}
    (hm : selectMicro (kindOf s.phase) s.stepCnt = some micro)
    (hmicro : ∀ u, micro (s.amid u) = ({ (s.amid u).drive p v with byte := b, bitcnt := c, stepCnt := n }, false)) :
    TickSends ⟨p, v⟩ s { s with byte := b, bitcnt := c, stepCnt := n } := by
  intro u
  rw [runSelected_amid hm, runMicro_notDone (s := s.amid u) (hmicro { u with lastUs := u.nowUs })]
  cases p <;> rfl

/-- The last micro-step of a sub-machine, which leaves BITCNT at `c`, with the completion action of the phase. -/
theorem tickSends_last {s : State} {micro : State → Micro} {p : Pin} {v : Level} {c : BitVec 4} (hlen : s.len.toNat ≤ 4)
    (hm : selectMicro (kindOf s.phase) s.stepCnt = some micro)
    (hmicro : ∀ u, micro (s.amid u) = ({ (s.amid u).drive p v with bitcnt := c, stepCnt := 0 }, true)) :
    TickSends ⟨p, v⟩ s (afterCompletion { s with bitcnt := c, stepCnt := 0 }) := by
  intro u
  rw [runSelected_amid hm, runMicro_done (s := s.amid u) (hmicro { u with lastUs := u.nowUs })
    (u := (afterCompletion { s with bitcnt := c, stepCnt := 0 }).amid ({ u with lastUs := u.nowUs }.drive p v))]
  · cases p <;> rfl
  · cases p <;> exact complete_amid (s := { s with bitcnt := c, stepCnt := 0 }) hlen _

/-! ### What the wire units put on the wire -/

/-- The bit cell of the bit BYTE holds lowest: B0, B1, B2 (R71, R141 to R143). -/
theorem sends_bitCell {s : State} (hk : kindOf s.phase = .byte) (hn : s.stepCnt = 0) :
    Sends (bitCell (s.byte.getLsbD 0)) s { s with
      byte := s.byte >>> 1, bitcnt := s.bitcnt + 1, stepCnt := if s.bitcnt.toNat + 1 < 8 then 0 else 3 } :=
  .cons (tickSends_goesOn (micro := microB0) (n := 1) (by rw [hk, hn]; rfl) fun _ => rfl)
    (.cons (tickSends_goesOn (micro := microB1) (n := 2) (by simp only [hk]; rfl) fun _ => rfl)
      (.cons (tickSends_goesOn (micro := microB2) (by simp only [hk]; rfl) fun _ => rfl) (.nil _)))

/-- The acknowledgment slot after the eighth bit: B3 to B6, with the completion action of the phase (R144 to R147). -/
theorem sends_ackSlot {s : State} (hk : kindOf s.phase = .byte) (hn : s.stepCnt = 3) (hlen : s.len.toNat ≤ 4) :
    Sends [⟨.clk, .low⟩, ⟨.dio, .released⟩, ⟨.clk, .released⟩, ⟨.clk, .low⟩] s
      (afterCompletion { s with bitcnt := 0, stepCnt := 0 }) :=
  .cons (tickSends_goesOn (micro := microB3) (n := 4) (by rw [hk, hn]; rfl) fun _ => rfl)
    (.cons (tickSends_goesOn (micro := microB4) (n := 5) (by simp only [hk]; rfl) fun _ => rfl)
      (.cons (tickSends_goesOn (micro := microB5) (n := 6) (by simp only [hk]; rfl) fun _ => rfl)
        (.cons (tickSends_last (micro := microB6) hlen (by simp only [hk]; rfl) fun _ => rfl) (.nil _))))

/-- The Start generator from its first step: S0, S1, S2, with the completion action of the phase (R161 to R163). -/
theorem sends_start {s : State} (hk : kindOf s.phase = .start) (hn : s.stepCnt = 0) (hlen : s.len.toNat ≤ 4) :
    Sends startEvents s (afterCompletion { s with stepCnt := 0 }) :=
  .cons (tickSends_goesOn (micro := microS0) (n := 1) (by rw [hk, hn]; rfl) fun _ => rfl)
    (.cons (tickSends_goesOn (micro := microS1) (n := 2) (by simp only [hk]; rfl) fun _ => rfl)
      (.cons (tickSends_last (micro := microS2) hlen (by simp only [hk]; rfl) fun _ => rfl) (.nil _)))

/-- The Stop generator from its first step: T0 to T3, with the completion action of the phase (R164 to R167). -/
theorem sends_stop {s : State} (hk : kindOf s.phase = .stop) (hn : s.stepCnt = 0) (hlen : s.len.toNat ≤ 4) :
    Sends stopEvents s (afterCompletion { s with stepCnt := 0 }) :=
  .cons (tickSends_goesOn (micro := microT0) (n := 1) (by rw [hk, hn]; rfl) fun _ => rfl)
    (.cons (tickSends_goesOn (micro := microT1) (n := 2) (by simp only [hk]; rfl) fun _ => rfl)
      (.cons (tickSends_goesOn (micro := microT2) (n := 3) (by simp only [hk]; rfl) fun _ => rfl)
        (.cons (tickSends_last (micro := microT3) hlen (by simp only [hk]; rfl) fun _ => rfl) (.nil _))))

/-- The first `k` bit cells of a byte, least significant bit first. -/
theorem sends_bitCells {s : State} (hk : kindOf s.phase = .byte) (hn : s.stepCnt = 0) (hc : s.bitcnt = 0) {k : Nat}
    (hle : k ≤ 8) :
    Sends ((List.range k).flatMap fun j => bitCell (s.byte.getLsbD j)) s { s with
      byte := s.byte >>> k, bitcnt := BitVec.ofNat 4 k, stepCnt := if k < 8 then 0 else 3 } := by
  induction k with
  | zero =>
    have hstart : { s with byte := s.byte >>> 0, bitcnt := 0, stepCnt := 0 } = s := by rw [← hn, ← hc, BitVec.ushiftRight_zero]
    exact hstart ▸ Sends.nil s
  | succ k ih =>
    have hlt : k < 8 := hle
    have hcell := sends_bitCell (s := { s with byte := s.byte >>> k, bitcnt := BitVec.ofNat 4 k, stepCnt := 0 }) hk rfl
    have hbit : (s.byte >>> k).getLsbD 0 = s.byte.getLsbD k := by simp
    have hshift : s.byte >>> k >>> 1 = s.byte >>> (k + 1) := (BitVec.shiftRight_add ..).symm
    have hcount : BitVec.ofNat 4 k + 1 = BitVec.ofNat 4 (k + 1) := (BitVec.ofNat_add ..).symm
    have hcounted : (BitVec.ofNat 4 k).toNat = k := by rw [BitVec.toNat_ofNat]; omega
    rw [List.range_succ, List.flatMap_append]
    simp only [hlt, if_true] at ih
    simp only [hbit, hshift, hcount, hcounted] at hcell
    simpa using (ih (by omega)).append hcell

/-- The 28 events of a byte, in any byte phase (R148). -/
theorem sends_byte {s : State} (hk : kindOf s.phase = .byte) (hn : s.stepCnt = 0) (hc : s.bitcnt = 0) (hlen : s.len.toNat ≤ 4) :
    Sends (byteEvents s.byte) s (afterCompletion { s with byte := 0, bitcnt := 0, stepCnt := 0 }) := by
  have hshifted : s.byte >>> 8 = 0 := by ext; simp
  have hcells := sends_bitCells hk hn hc (le_refl 8)
  rw [hshifted] at hcells
  exact hcells.append (sends_ackSlot hk rfl hlen)

/-! ### A whole transmission -/

/-- `s` where phase `p` begins, with BYTE and IDX as they are loaded for it. -/
def State.atPhase (s : State) (p : Phase) (b : Byte) (i : BitVec 3) : State :=
  { s with phase := p, byte := b, idx := i, stepCnt := 0, bitcnt := 0 }

section Transmission

variable {s : State} {p q : Phase} {b b' : Byte} {i i' : BitVec 3}

/-- The byte phases send BYTE and lead where their completion action does. -/
theorem sends_bytePhase (hk : kindOf p = .byte) (hlen : s.len.toNat ≤ 4)
    (hc : afterCompletion (s.atPhase p 0 i) = s.atPhase q b' i') : Sends (byteEvents b) (s.atPhase p b i) (s.atPhase q b' i') :=
  hc ▸ sends_byte (s := s.atPhase p b i) hk rfl rfl hlen

/-- The line phases send their condition and lead where their completion action does. -/
theorem sends_startPhase (hk : kindOf p = .start) (hlen : s.len.toNat ≤ 4)
    (hc : afterCompletion (s.atPhase p b i) = s.atPhase q b' i') : Sends startEvents (s.atPhase p b i) (s.atPhase q b' i') :=
  hc ▸ sends_start (s := s.atPhase p b i) hk rfl hlen

theorem sends_stopPhase (hk : kindOf p = .stop) (hlen : s.len.toNat ≤ 4)
    (hc : afterCompletion (s.atPhase p b i) = s.atPhase q b' i') : Sends stopEvents (s.atPhase p b i) (s.atPhase q b' i') :=
  hc ▸ sends_stop (s := s.atPhase p b i) hk rfl hlen

/-- The byte of the buffer that phase 4 sends at an index (R53). -/
def State.segByteAt (s : State) (i : Nat) : Byte := (memRead s.seg i).getD 0

theorem flatMap_segBytes (s : State) :
    (segBytes s).flatMap byteEvents = (List.range' 0 s.len.toNat).flatMap fun j => byteEvents (s.segByteAt j) := by
  rw [segBytes, List.flatMap_map, List.range_eq_range']
  rfl

/-- While there is a byte left, phase 4 loads it; after the last it leads to phase 5 (R125). -/
theorem afterCompletion_p4_more (h : i.toNat + 1 < s.len.toNat) :
    afterCompletion (s.atPhase .p4 b i) = s.atPhase .p4 (s.segByteAt (i.toNat + 1)) (i + 1) := if_pos h

theorem afterCompletion_p4_last (h : ¬ i.toNat + 1 < s.len.toNat) :
    afterCompletion (s.atPhase .p4 b i) = s.atPhase .p5 b (i + 1) := if_neg h

/-- Phase 4 sends the bytes of the buffer from IDX to the last, and leaves IDX at LEN (R53, R125). -/
theorem sends_buffer (hlen : s.len.toNat ≤ 4) (n : Nat) (hi : i.toNat + (n + 1) = s.len.toNat) :
    Sends ((List.range' i.toNat (n + 1)).flatMap fun j => byteEvents (s.segByteAt j))
      (s.atPhase .p4 (s.segByteAt i.toNat) i) (s.atPhase .p5 0 s.len) := by
  induction n generalizing i with
  | zero =>
    have hend : i + 1 = s.len := by bv_omega
    have hlast : ¬ i.toNat + 1 < s.len.toNat := by omega
    have hbyte := sends_bytePhase (b := s.segByteAt i.toNat) rfl hlen (afterCompletion_p4_last (b := 0) hlast)
    rw [hend] at hbyte
    simpa using hbyte
  | succ n ih =>
    have hsucc : (i + 1).toNat = i.toNat + 1 := by bv_omega
    have hrest := ih (i := i + 1) (by omega)
    rw [hsucc] at hrest
    exact (sends_bytePhase rfl hlen (afterCompletion_p4_more (by omega))).append hrest

/-- An armed transmission sends the rest of frame 1 and frames 2 and 3, and ends idle (R72, R131). -/
theorem sends_transmission (hpos : 1 ≤ s.len.toNat) (hlen : s.len.toNat ≤ 4) :
    Sends (transmissionEvents s.pos (segBytes s) s.bright) (s.atPhase .p0 0x40 i) (s.atPhase .idle 0 s.len) := by
  obtain ⟨n, hn⟩ := Nat.exists_eq_add_of_le' hpos
  have mode : Sends (byteEvents 0x40) (s.atPhase .p0 0x40 i) (s.atPhase .p1 (cmdAddrByte s.pos) i) := sends_bytePhase rfl hlen rfl
  have stop1 : Sends stopEvents _ (s.atPhase .p2 (cmdAddrByte s.pos) i) := sends_stopPhase (p := .p1) rfl hlen rfl
  have start2 : Sends startEvents _ (s.atPhase .p3 (cmdAddrByte s.pos) i) := sends_startPhase (p := .p2) rfl hlen rfl
  have addr : Sends (byteEvents (cmdAddrByte s.pos)) _ (s.atPhase .p4 (s.segByteAt 0) 0) :=
    sends_bytePhase (p := .p3) (i := i) rfl hlen rfl
  have buffer : Sends ((segBytes s).flatMap byteEvents) (s.atPhase .p4 (s.segByteAt 0) 0) (s.atPhase .p5 0 s.len) := by
    rw [flatMap_segBytes, hn]
    exact sends_buffer (i := 0) hlen n (by simp [hn])
  have stop2 : Sends stopEvents _ (s.atPhase .p6 (cmdCtrlByte s.bright) s.len) := sends_stopPhase (p := .p5) (b := 0) rfl hlen rfl
  have start3 : Sends startEvents _ (s.atPhase .p7 (cmdCtrlByte s.bright) s.len) := sends_startPhase (p := .p6) rfl hlen rfl
  have ctrl : Sends (byteEvents (cmdCtrlByte s.bright)) _ (s.atPhase .p8 0 s.len) := sends_bytePhase (p := .p7) rfl hlen rfl
  have stop3 : Sends stopEvents _ (s.atPhase .idle 0 s.len) := sends_stopPhase (p := .p8) rfl hlen rfl
  exact ((mode.append stop1).append (((start2.append addr).append buffer).append stop2)).append ((start3.append ctrl).append stop3)

end Transmission

/-! ### Runs of ticks -/

theorem run_zero (s : State) : run 0 s = .next s := rfl

/-- A run of `m + n` steps is a run of `n` after a run of `m`. -/
theorem run_add {m : Nat} {s t : State} (h : run m s = .next t) (n : Nat) : run (m + n) s = run n t := by
  induction m generalizing s with
  | zero => cases h; rw [Nat.zero_add]
  | succ m ih =>
    cases hs : step s with
    | next s' =>
      rw [run_succ hs] at h
      rw [Nat.add_right_comm, run_succ hs, ih h]
    | fault f =>
      have hcore : Sys2Proof.core.step s = .fault f := hs
      simp [run, Host.Core.run, hcore] at h
    | refused r =>
      have hcore : Sys2Proof.core.step s = .refused r := hs
      simp [run, Host.Core.run, hcore] at h

/-- The registers of `t` after executed ticks put `es` on the lines of `u`, the last of them at the time `now`. -/
def State.sent (t u : State) (es : List PinEvent) (now : Time) (rest : List Move) : State :=
  { t with
    clk := padAfter .clk u.clk es, dio := padAfter .dio u.dio es, wire := u.wire ++ es, lastUs := now, nowUs := now, moves := rest,
    tickRet := some (t.phase == .idle), idleOut := none }

/-- One more event on the lines. -/
theorem emit_eq_sent {t u w : State} {es : List PinEvent} {e : PinEvent} (hclk : w.clk = padAfter .clk u.clk es)
    (hdio : w.dio = padAfter .dio u.dio es) (hwire : w.wire = u.wire ++ es) (hidle : w.idleOut = none) :
    (t.amid w).emit e = t.sent u (es ++ [e]) w.nowUs w.moves := by
  obtain ⟨p, v⟩ := e
  cases p <;>
    simp [State.emit, State.sent, State.amid, State.drive, State.recordRet, padAfter_concat, hclk, hdio, hwire, hidle]

section Tick

variable {e : PinEvent} {s t u : State}

/-- A tick that puts an event on the wire is one of an active phase, and changes neither START_MS nor `now_ms`. -/
theorem TickSends.active (h : TickSends e s t) : s.phase ≠ .idle := by
  obtain ⟨micro, _, hm, -⟩ := runSelected_next (h s)
  exact phase_ne_idle_of_selectMicro hm

theorem TickSends.watchdog (h : TickSends e s t) : t.nowMs - t.startMs = s.nowMs - s.startMs := by
  obtain ⟨-, -, -, hstart, -, -, -, -, -, hms, -⟩ := runSelected_untouched (h s)
  have hms' : t.nowMs = s.nowMs := by simpa [State.emit, State.amid] using hms
  have hstart' : t.startMs = s.startMs := by simpa [State.emit, State.amid] using hstart
  rw [hms', hstart']

/-- The step that takes a tick request where the tick executes. -/
theorem TickSends.step_tick (h : TickSends e s t) {rest : List Move} (hm : u.moves = .present tickWord :: rest)
    (he : Executing (s.amid u)) : step (s.amid u) = .next ((t.amid (u.consume rest)).emit e) := by
  have he' : Executing (s.amid (u.consume rest)) := he
  have hconsume : (s.amid u).consume rest = s.amid (u.consume rest) := rfl
  rw [step_present_tick (s := s.amid u) hm, hconsume, execTick_executing he', h]

/-- A minimum interval and a tick that executes, after another (R87). -/
theorem TickSends.run_interval (h : TickSends e s t) (u : State) (ds : List PinEvent) (now : Time) (rest : List Move)
    (hw : s.nowMs - s.startMs ≤ Config.timing.wdogMs) :
    run 2 (s.sent u ds now (.time Config.timing.minUs.toNat 0 :: .present tickWord :: rest)) =
      .next (t.sent u (ds ++ [e]) (now + Config.timing.minUs) rest) := by
  have htime : step (s.sent u ds now (.time Config.timing.minUs.toNat 0 :: .present tickWord :: rest)) =
      .next (s.amid { s.sent u ds (now + Config.timing.minUs) (.present tickWord :: rest) with lastUs := now, tickRet := none }) :=
    (step_env rfl rfl).trans (by simp [State.advance, State.consume, State.sent, State.amid])
  have he : Executing (s.amid { s.sent u ds (now + Config.timing.minUs) (.present tickWord :: rest) with
      lastUs := now, tickRet := none }) := ⟨h.active, hw, by simp [State.sent, State.amid]⟩
  rw [run_succ htime, run_succ (h.step_tick rfl he), emit_eq_sent (u := u) (es := ds) rfl rfl rfl rfl]
  rfl

end Tick

/-- `RUN` puts the events of its ticks on the wire, one every minimum interval, while the watchdog's deadline has not passed (R87,
R108). -/
theorem run_sends {es ds : List PinEvent} {s t : State} (h : Sends es s t) (u : State) (now : Time) (rest : List Move)
    (hw : s.nowMs - s.startMs ≤ Config.timing.wdogMs) :
    run (2 * es.length) (s.sent u ds now (runMoves es.length ++ rest)) =
      .next (t.sent u (ds ++ es) (now + BitVec.ofNat 32 (es.length * Config.timing.minUs.toNat)) rest) := by
  induction h generalizing ds now with
  | nil s =>
    have hclock : now + BitVec.ofNat 32 (0 * Config.timing.minUs.toNat) = now := by simp
    rw [List.length_nil, List.append_nil, hclock]
    exact run_zero _
  | @cons e es s s' t htick hs ih =>
    have hmoves : runMoves (es.length + 1) ++ rest =
        .time Config.timing.minUs.toNat 0 :: .present tickWord :: (runMoves es.length ++ rest) := rfl
    have hclock : now + BitVec.ofNat 32 ((es.length + 1) * Config.timing.minUs.toNat) =
        now + Config.timing.minUs + BitVec.ofNat 32 (es.length * Config.timing.minUs.toNat) := by
      rw [Nat.succ_mul, BitVec.ofNat_add, BitVec.ofNat_toNat, BitVec.setWidth_eq, BitVec.add_assoc,
        BitVec.add_comm _ Config.timing.minUs]
    have hrest := ih (ds := ds ++ [e]) (now + Config.timing.minUs) (htick.watchdog ▸ hw)
    rw [List.append_assoc] at hrest
    rw [List.length_cons, Nat.mul_succ, Nat.add_comm, hmoves, hclock]
    exact (run_add (htick.run_interval u ds now _ hw) _).trans hrest

/-- A tick that executes and a `RUN` of ticks put their events on the wire. -/
theorem run_sends_first {e : PinEvent} {es : List PinEvent} {s t : State} {rest : List Move} (h : Sends (e :: es) s t)
    (he : Executing s) (hm : s.moves = .present tickWord :: (runMoves es.length ++ rest)) :
    run (1 + 2 * es.length) s =
      .next (t.sent s (e :: es) (s.nowUs + BitVec.ofNat 32 (es.length * Config.timing.minUs.toNat)) rest) := by
  have ⟨_, hw, _⟩ := he
  cases h with
  | @cons _ _ _ s' _ htick hs =>
    have hfirst : run 1 s = .next (s'.sent s [e] s.nowUs (runMoves es.length ++ rest)) := by
      have hself : s.amid s = s := rfl
      have hstep := htick.step_tick (u := s) hm (hself ▸ he)
      rw [hself, emit_eq_sent (w := s.consume _) (u := s) (es := []) rfl rfl (by simp) rfl] at hstep
      exact run_succ hstep 0
    exact (run_add hfirst _).trans (run_sends hs s s.nowUs rest (htick.watchdog ▸ hw))

/-! ### The arming (R102 to R105, R112) -/

theorem step_time {s : State} {rest : List Move} {dUs dMs : Nat} (hm : s.moves = .time dUs dMs :: rest) :
    step s = .next ((s.consume rest).advance dUs dMs) := step_env hm rfl

section Arming

variable {s : State} {rest : List Move}

/-- A presented ARM with PRE = 0 loads (R79, R101). -/
theorem step_present_arm {len pos : BitVec 8} {seg : BitVec 32}
    (hm : s.moves = .present (hostopWord 2 (len ++ pos ++ seg)) :: rest) (hp : s.pre = .ready) :
    step s = .next ((s.consume rest).armLoad len pos seg) := by
  rw [step_run hm (fetch_present (decodeHostop_hostopWord_arm len pos seg) _)]
  exact exec_arm_ready (s := s.consume rest) hp len pos seg

/-- ARMSEQ with PRE = 2 releases the data line and begins the bus-settle hold (R103). -/
theorem step_armseq_reld (hm : s.moves = .armseq :: rest) (hp : s.pre = .reld) :
    step s = .next { (s.consume rest).drive .dio .released with dlyUs := s.nowUs, pre := .strt } := by
  rw [step_run (i := .armReld) hm (fetch_armseq (by simp only [State.consume_pre, hp]; rfl)), exec_armReld]
  exact if_pos hp

/-- ARMSEQ with PRE = 3, after the bus-settle hold, drives the data line low and begins the start-recognition hold (R104). -/
theorem step_armseq_strt (hm : s.moves = .armseq :: rest) (hp : s.pre = .strt)
    (hold : Config.timing.settleUs ≤ s.nowUs - s.dlyUs) :
    step s = .next { (s.consume rest).drive .dio .low with dlyUs := s.nowUs, pre := .done } := by
  rw [step_run (i := .armStrt) hm (fetch_armseq (by simp only [State.consume_pre, hp]; rfl)), exec_armStrt]
  exact if_pos ⟨hp, hold⟩

/-- ARMSEQ with PRE = 4, after the start-recognition hold, is done (R105). -/
theorem step_armseq_done (hm : s.moves = .armseq :: rest) (hp : s.pre = .done)
    (hold : Config.timing.startUs ≤ s.nowUs - s.dlyUs) :
    step s = .next { s.consume rest with pre := .ready } := by
  rw [step_run (i := .armDone) hm (fetch_armseq (by simp only [State.consume_pre, hp]; rfl)), exec_armDone]
  exact if_pos ⟨hp, hold⟩

/-- `s` after its whole arming, with `d1` and `d2` microseconds for the two holds. -/
def State.armed (s : State) (d1 d2 : Nat) (rest : List Move) : State :=
  { s with
    clk := .released, dio := .low, wire := s.wire ++ startEvents, pre := .ready, dlyUs := s.nowUs + BitVec.ofNat 32 d1,
    nowUs := s.nowUs + BitVec.ofNat 32 d1 + BitVec.ofNat 32 d2, moves := rest, tickRet := none, idleOut := none }

/-- The four sub-steps, each after its hold, are the arming (R82, R112). -/
theorem run_arming {d1 d2 : Nat} (hp : s.pre = .relc) (h1 : Config.timing.settleUs ≤ BitVec.ofNat 32 d1)
    (h2 : Config.timing.startUs ≤ BitVec.ofNat 32 d2)
    (hm : s.moves = [.armseq, .armseq, .time d1 0, .armseq, .time d2 0, .armseq] ++ rest) :
    run 6 s = .next (s.armed d1 d2 rest) := by
  rw [run_succ (step_armseq_relc hm hp), run_succ (step_armseq_reld rfl rfl), run_succ (step_time rfl),
    run_succ (step_armseq_strt rfl rfl (by simpa using h1)), run_succ (step_time rfl),
    run_succ (step_armseq_done rfl rfl (by simpa using h2)), run_zero]
  simp [State.armed, State.advance, State.consume, State.drive, startEvents]

end Arming

end Sys2Proof.Machine

/-! PROOFS. The trace of an armed transmission, read by R88, is the three frames of R72. -/

namespace Sys2Proof.Machine

open Sys2Proof.Safety

/-! ### Reading a trace in parts -/

theorem padAfter_append (p : Pin) (v : Level) (es fs : List PinEvent) :
    padAfter p v (es ++ fs) = padAfter p (padAfter p v es) fs := by
  induction es generalizing v with
  | nil => rfl
  | cons e es ih => exact ih _

/-- The rest of a trace is read from the pads that its first part leaves. -/
theorem readWire_append (c d : Level) (es fs : List PinEvent) :
    readWire c d (es ++ fs) = readWire c d es ++ readWire (padAfter .clk c es) (padAfter .dio d es) fs := by
  induction es generalizing c d with
  | nil => rfl
  | cons e es ih =>
    simp only [List.cons_append, readWire, ih, List.append_assoc]
    rfl

/-- From any pads, bit cells read as their bits: the data line moves only while the clock line is low (R71). -/
theorem readWire_bitCells (bits : List Bool) (c d : Level) :
    readWire c d (bits.flatMap bitCell) = bits.map fun b => .edge (if b then .released else .low) := by
  induction bits generalizing c d with
  | nil => rfl
  | cons b bits ih =>
    rw [List.flatMap_cons, readWire_append, ih]
    cases b <;> rfl

/-- From any pads, the events of a byte read as its nine edges (R88). -/
theorem readWire_byteEvents (b : Byte) (c d : Level) : readWire c d (byteEvents b) = byteSymbols b := by
  have hbits : (List.range 8).flatMap (fun k => bitCell (b.getLsbD k)) = ((List.range 8).map b.getLsbD).flatMap bitCell :=
    (List.flatMap_map ..).symm
  rw [byteEvents, hbits, readWire_append, readWire_bitCells, List.map_map]
  rfl

/-- Bytes one after another read as their symbols, from any pads. -/
theorem readWire_bytes (bytes : List Byte) (c d : Level) :
    readWire c d (bytes.flatMap byteEvents) = bytes.flatMap byteSymbols := by
  induction bytes generalizing c d with
  | nil => rfl
  | cons b bytes ih => rw [List.flatMap_cons, List.flatMap_cons, readWire_append, readWire_byteEvents, ih]

/-- From any pads, a stop reads as its own clock edge and a stop. -/
theorem readWire_stopEvents : ∀ c d : Level, readWire c d stopEvents = [.edge .low, .stop] := by
  intro c d
  cases c <;> cases d <;> rfl

/-- The events of a frame (R72). -/
def frameEvents (bytes : List Byte) : List PinEvent := startEvents ++ bytes.flatMap byteEvents ++ stopEvents

/-- From released lines the events of a frame read as the frame, and what follows is read from released lines again. -/
theorem readWire_frame_append (bytes : List Byte) (fs : List PinEvent) :
    readWire .released .released (frameEvents bytes ++ fs) = frameSymbols bytes ++ readWire .released .released fs := by
  have hclk : padAfter .clk .released (frameEvents bytes) = .released := by rw [frameEvents, padAfter_append]; rfl
  have hdio : padAfter .dio .released (frameEvents bytes) = .released := by rw [frameEvents, padAfter_append]; rfl
  have hframe : readWire .released .released (frameEvents bytes) = frameSymbols bytes := by
    rw [frameEvents, readWire_append, readWire_append, readWire_bytes, readWire_stopEvents]
    rfl
  rw [readWire_append, hframe, hclk, hdio]

/-- A start and the events of a transmission are three frames. -/
theorem startEvents_transmissionEvents (pos : BitVec 2) (segs : List Byte) (bright : BitVec 4) :
    startEvents ++ transmissionEvents pos segs bright =
      frameEvents [0x40] ++ (frameEvents ((0xC0 + pos.setWidth 8) :: segs) ++ frameEvents [0x80 + bright.setWidth 8]) := by
  simp [transmissionEvents, frameEvents]

theorem readWire_transmission (pos : BitVec 2) (segs : List Byte) (bright : BitVec 4) :
    readWire .released .released (startEvents ++ transmissionEvents pos segs bright) =
      frameSymbols [0x40] ++ frameSymbols ((0xC0 + pos.setWidth 8) :: segs) ++ frameSymbols [0x80 + bright.setWidth 8] := by
  have hlast := readWire_frame_append [0x80 + bright.setWidth 8] []
  rw [List.append_nil] at hlast
  rw [startEvents_transmissionEvents, readWire_frame_append, readWire_frame_append, hlast, List.append_assoc]
  simp [readWire]

/-! ### The events of a transmission and their number -/

theorem length_byteEvents (b : Byte) : (byteEvents b).length = 28 := rfl

/-- A transmission of LEN bytes is 102 + 28 x LEN events, one a tick (R131, R217). -/
theorem length_transmissionEvents (pos : BitVec 2) (segs : List Byte) (bright : BitVec 4) :
    (transmissionEvents pos segs bright).length = 102 + 28 * segs.length := by
  simp [transmissionEvents, length_byteEvents, List.length_flatMap, startEvents, stopEvents]
  omega

/-- The bytes phase 4 sends after an ARM are its operand bytes below the clamped length (R53, R80). -/
theorem segBytes_armLoad {s : State} (hs : s.seg.Pairwise fun x y => x.1 < y.1) (len pos : BitVec 8) (seg : BitVec 32) :
    segBytes (s.armLoad len pos seg) = (List.range (clampLen len).toNat).map fun i => seg.extractLsb' (8 * i) 8 := by
  refine List.map_congr_left fun i hi => ?_
  have hlt : i < (clampLen len).toNat := List.mem_range.mp hi
  have hread : memRead (s.armLoad len pos seg).seg i = some (segByte seg (clampLen len) i) :=
    memRead_memFill _ hs (hlt.trans_le (clampLen_range len).2)
  rw [hread, Option.getD_some, segByte, if_pos hlt]

/-- `s` at the first tick after an ARM, its arming and the `d3` microseconds after it, with the moves `ticks` to come. -/
def State.armedFor (s : State) (len pos : BitVec 8) (seg : BitVec 32) (d1 d2 d3 : Nat) (ticks : List Move) : State :=
  (((s.armLoad len pos seg).armed d1 d2 ticks).advance d3 0)

section ArmFull

variable {s : State} {len pos : BitVec 8} {seg : BitVec 32} {d1 d2 d3 : Nat} {ticks : List Move}

/-- `ARMFULL` of R87 up to its first tick: ARM, the four sub-steps and their holds. -/
theorem run_armFull (hp : s.pre = .ready) (h1 : Config.timing.settleUs ≤ BitVec.ofNat 32 d1)
    (h2 : Config.timing.startUs ≤ BitVec.ofNat 32 d2) (hm : s.moves = armFullMoves len pos seg d1 d2 d3 ++ ticks) :
    run 8 s = .next (s.armedFor len pos seg d1 d2 d3 (.present tickWord :: ticks)) := by
  refine (run_succ (step_present_arm hm hp) 7).trans ?_
  refine (run_add (run_arming (rest := .time d3 0 :: .present tickWord :: ticks) rfl h1 h2 rfl) 1).trans ?_
  exact run_succ (step_time rfl) 0

/-- The first tick after the arming executes if the minimum interval has passed since the ARM (R108). -/
theorem executing_armedFor (h : Config.timing.minUs ≤ BitVec.ofNat 32 (d1 + d2 + d3)) :
    Executing (s.armedFor len pos seg d1 d2 d3 ticks) := by
  refine ⟨nofun, ?_, ?_⟩
  · simp [State.armedFor, State.armed, BitVec.le_def]
  · have helapsed : s.nowUs + BitVec.ofNat 32 d1 + BitVec.ofNat 32 d2 + BitVec.ofNat 32 d3 - s.nowUs =
        BitVec.ofNat 32 (d1 + d2 + d3) := by
      rw [BitVec.ofNat_add, BitVec.ofNat_add]
      ring
    simpa [State.armedFor, State.armed, helapsed] using h

end ArmFull

/-- The transmission that an ARM loaded is sent from its first tick, and has one event for each tick. -/
theorem sends_armedFor {s : State} (hs : s.seg.Pairwise fun x y => x.1 < y.1) (len pos : BitVec 8) (seg : BitVec 32)
    (d1 d2 d3 : Nat) (ticks : List Move) :
    ∃ e es t, e :: es = transmissionEvents (maskPos pos)
        ((List.range (clampLen len).toNat).map fun i => seg.extractLsb' (8 * i) 8) s.bright ∧
      es.length = 101 + 28 * (clampLen len).toNat ∧ t.phase = .idle ∧
      Sends (e :: es) (s.armedFor len pos seg d1 d2 d3 ticks) t := by
  obtain ⟨hpos, hlen⟩ := clampLen_range len
  have hsends := sends_transmission (s := s.armedFor len pos seg d1 d2 d3 ticks) (i := 0) hpos hlen
  have hbytes : segBytes (s.armedFor len pos seg d1 d2 d3 ticks) = _ := segBytes_armLoad hs len pos seg
  have hcount := length_transmissionEvents (maskPos pos) (segBytes (s.armedFor len pos seg d1 d2 d3 ticks)) s.bright
  rw [hbytes] at hsends hcount
  rw [List.length_map, List.length_range] at hcount
  obtain ⟨e, es, hes⟩ := List.exists_cons_of_length_pos (by rw [hcount]; omega)
  rw [hes, List.length_cons] at hcount
  exact ⟨e, es, _, hes.symm, by omega, rfl, hes ▸ hsends⟩

/-- Settles O35: ARM and its arming leave the three events of a start, and the ticks those of the transmission it loaded; together
they are three frames from released lines. -/
theorem armedTraceReadsAsThreeFrames : Obligations.ArmedTraceReadsAsThreeFrames := by
  intro s len pos seg d1 d2 d3 hp _ _ hwire hseg h1 h2 h3 hm
  obtain ⟨e, es, t, hes, hcount, hidle, hsends⟩ := sends_armedFor hseg len pos seg d1 d2 d3 _
  have hrun := (run_add (run_armFull hp h1 h2 hm) _).trans
    (run_sends_first hsends (executing_armedFor h3) (rest := []) (by rw [hcount, List.append_nil]; rfl))
  have htrace : (s.armedFor len pos seg d1 d2 d3 []).wire ++ e :: es = startEvents ++ e :: es :=
    congrArg (· ++ startEvents ++ e :: es) hwire
  refine ⟨_, (congrArg (run · s) (by omega)).trans hrun, hidle, by simp [State.sent, hidle], ?_⟩
  rw [← readWire_transmission, ← hes, ← htrace]
  rfl

end Sys2Proof.Machine

/-! PROOFS. The pins of an undisturbed transmission (R112, R148, R168): an executed tick leads from the pins of one micro-step to
those of the next, and no move but an executed tick while an arming is in progress (R208) disturbs them. -/

namespace Sys2Proof.Machine

open Sys2Proof.Safety

/-! ### An executed tick keeps the pins of the program -/

/-- The pins that the last micro-step of a sub-machine leaves, with STEP at 0 and, after a byte, BITCNT at 0 (R147, R163, R167). -/
def EndPins (s : State) : Prop :=
  s.stepCnt = 0 ∧
  match kindOf s.phase with
  | .byte => s.bitcnt = 0 ∧ s.clk = .low ∧ s.dio = .released
  | .start => s.clk = .released ∧ s.dio = .low
  | .stop => s.clk = .released ∧ s.dio = .released
  | .none => True

/-- The selected micro-step leads from the pins before it to those before the next, or to those at the end of its sub-machine. -/
theorem selectMicro_pins {s : State} {micro : State → Micro} (h : selectMicro (kindOf s.phase) s.stepCnt = some micro)
    (hs : ProgramPins s) : if (micro s).2 then EndPins (micro s).1 else ProgramPins (micro s).1 := by
  unfold ProgramPins at hs
  unfold selectMicro at h
  split at h <;> cases h <;> rename_i hk hn <;> simp only [hk, hn] at hs
  case h_3 =>
    by_cases hmore : s.bitcnt.toNat + 1 < 8
    · have hsucc : ¬ s.bitcnt + 1#4 = 0#4 := by bv_omega
      simp [ProgramPins, microB2, hk, hmore, hsucc]
    · simp [ProgramPins, microB2, hk, hmore]
  case h_7 | h_10 | h_14 => simp [EndPins, microB6, microS2, microT3, hk, hs]
  all_goals
    simp [ProgramPins, microB0, microB1, microB3, microB4, microB5, microS0, microS1, microT0, microT1, microT2, hk, hs]

/-- Each completion action leads from the end of its phase to pins with which the next phase, or the next byte of phase 4, begins
(R121 to R129). -/
theorem complete_pins {s t : State} (hs : EndPins s) (h : complete s = .next t) : ProgramPins t := by
  obtain ⟨hstep, hpins⟩ := hs
  cases hp : s.phase <;> simp only [complete, hp] at h <;> simp only [hp, kindOf] at hpins
  case p3 =>
    simp only [completeP3, memRead_some _ (show 0 < 4 by omega)] at h
    cases h
    simp [ProgramPins, kindOf, hstep, hpins]
  case p4 =>
    unfold completeP4 at h
    split at h
    · split at h <;> cases h
      simp [ProgramPins, kindOf, hp, hstep, hpins]
    · cases h
      simp [ProgramPins, kindOf, hstep, hpins]
  all_goals
    cases h
    simp [ProgramPins, kindOf, hp, hstep, hpins]

/-- An executed tick keeps the pins of the program. -/
theorem runSelected_keeps_programPins {s t : State} (hs : ProgramPins s) (h : runSelected complete s = .next t) :
    ProgramPins t := by
  obtain ⟨micro, u, hm, rfl, hu⟩ := runSelected_next h
  have hmicro := selectMicro_pins (s := { s with lastUs := s.nowUs }) hm hs
  rcases hu with ⟨hdone, rfl⟩ | ⟨hdone, hc⟩ <;> rw [hdone] at hmicro
  · exact hmicro
  · exact complete_pins (t := u) hmicro hc

/-! ### Operations keep an undisturbed wire -/

/-- Outside an arming the pins are the program's. -/
theorem undisturbed_ready {s : State} (h : s.pre = .ready) : Undisturbed s ↔ ProgramPins s := by simp [Undisturbed, h]

/-- The end of the arming leaves the pins with which a transmission begins, or an idle machine (R105, R112). -/
theorem programPins_of_armed {s : State} (h : ArmedOrIdle s) (hclk : s.clk = .released) (hdio : s.dio = .low) : ProgramPins s := by
  rcases h with hp | ⟨hp, hstep, hbitcnt⟩
  · simp [ProgramPins, kindOf, hp]
  · simp [ProgramPins, kindOf, hp, hstep, hbitcnt, hclk, hdio]

/-- The watchdog leaves the pins where they are, and asks nothing of the program's (R186). -/
theorem takeWatchdog_keeps_undisturbed {s : State} (hs : Undisturbed s) : Undisturbed s.takeWatchdog := by
  have hidle : ArmedOrIdle s.takeWatchdog := .inl rfl
  cases hp : s.pre <;> simp only [Undisturbed, State.takeWatchdog_pre, hp] at hs ⊢
  case ready => trivial
  case relc => exact hidle
  case reld => exact ⟨hs.1, hidle⟩
  case strt | done => exact ⟨hs.1, hs.2.1, hidle⟩

/-- Every operation that is no executed tick during an arming keeps an undisturbed wire. -/
theorem exec_keeps_undisturbed {i : Instr} {s t : State} (hs : Undisturbed s) (hduty : s.pre ≠ .ready → ¬ ExecutesTick i s)
    (h : exec i s = .next t) : Undisturbed t := by
  cases exec_did h with
  | nothing | brightSet | idleRead | idleEntry => exact hs
  | tickQuiet =>
    rcases quietTick_eq s with ⟨-, hq⟩ | ⟨-, hq⟩ <;> rw [hq]
    · exact hs
    · exact takeWatchdog_keeps_undisturbed (s := s) hs
  | ticked he ht =>
    have hp : s.pre = .ready := not_not.mp fun hp => hduty hp he
    obtain ⟨-, -, -, -, -, -, hpre, -⟩ := runSelected_untouched ht
    exact (undisturbed_ready (hpre.trans hp)).mpr (runSelected_keeps_programPins ((undisturbed_ready hp).mp hs) ht)
  | armed | cleared => exact .inr ⟨rfl, rfl, rfl⟩
  | relc _ hp =>
    simp only [Undisturbed, hp] at hs
    exact ⟨rfl, hs⟩
  | reld _ hp =>
    simp only [Undisturbed, hp] at hs
    exact ⟨hs.1, rfl, hs.2⟩
  | strt _ hp =>
    simp only [Undisturbed, hp] at hs
    obtain ⟨hclk, -, harmed⟩ := hs
    exact ⟨hclk, rfl, harmed⟩
  | done _ hp =>
    simp only [Undisturbed, hp] at hs
    obtain ⟨hclk, hdio, harmed⟩ := hs
    exact programPins_of_armed (s := s) harmed hclk hdio

/-! ### The only executed tick that a move brings is TICK -/

theorem encode_of_decodePhase {w : BitVec 4} {i : Instr} (h : decodePhase w = .ok i) : ∃ c, encode i = .phase c := by
  unfold decodePhase at h
  split at h <;> cases h <;> exact ⟨_, rfl⟩

theorem encode_of_decodeUstep {w : BitVec 5} {i : Instr} (h : decodeUstep w = .ok i) : ∃ c, encode i = .ustep c := by
  unfold decodeUstep at h
  split at h <;> cases h <;> exact ⟨_, rfl⟩

theorem encode_of_decodeWirebyte {place : Place} {w : Byte} {i : Instr} (h : decodeWirebyte place w = .ok i) :
    ∃ c, encode i = .wirebyte place c := by
  cases place <;> simp only [decodeWirebyte] at h
  case data => cases h; exact ⟨_, rfl⟩
  all_goals
    split at h <;> cases h
    exact ⟨_, rfl⟩

/-- The rows that the registers select have codes of the levels below HOSTOP and ARMSEQ (R70). -/
theorem eq_tick_of_movable {i : Instr} {s : State} (hm : Movable i) (hs : Selected i s) : i = .tick := by
  have below : ∀ {c : Code}, encode i = c → (∀ w, c ≠ .hostop w) → (∀ w, c ≠ .armseq w) → i = .tick := by
    rintro _ rfl hhost harm
    exact (hm.elim (fun ⟨w, hw⟩ => hhost w hw) fun ⟨w, hw⟩ => harm w hw).elim
  rcases hs with hi | hphase | hustep | ⟨place, w, -, -, hbyte⟩
  · exact hi
  · obtain ⟨c, hc⟩ := encode_of_decodePhase hphase
    exact below hc nofun nofun
  · obtain ⟨c, hc⟩ := encode_of_decodeUstep hustep
    exact below hc nofun nofun
  · obtain ⟨c, hc⟩ := encode_of_decodeWirebyte hbyte
    exact below hc nofun nofun

/-- A move brings operations of the levels HOSTOP and ARMSEQ only, and TICK as a presented word only (R79, R82). -/
theorem fetch_run {m : Move} {s : State} {i : Instr} (h : fetch m s = .run i) :
    Movable i ∧ (i = .tick → ∃ w, m = .present w ∧ decodeHostop w = .ok .tick) := by
  cases m with
  | rst | time | receiver => cases h
  | armseq =>
    simp only [fetch] at h
    split at h <;> cases h
    next hd =>
    refine ⟨movable_of_decodeArmseq hd, ?_⟩
    rintro rfl
    unfold decodeArmseq at hd
    split at hd <;> cases hd
  | present w =>
    simp only [fetch] at h
    split at h <;> cases h
    next hd => exact ⟨movable_of_decodeHostop hd, fun hi => ⟨w, rfl, hi ▸ hd⟩⟩
  | command op len pos seg on level =>
    cases h
    refine ⟨movable_decodeCommand op len pos seg on level, fun hi => ?_⟩
    unfold decodeCommand at hi
    split at hi <;> cases hi

/-- Settles O40: under the host's duty the operation of a move is no executed tick during an arming, so it keeps the wire
undisturbed; a reset leaves an idle machine, and the other moves of the environment touch none of the registers it reads. -/
theorem stepsKeepAnUndisturbedWire : Obligations.StepsKeepAnUndisturbedWire := by
  refine ⟨trivial, fun s t hs hduty h => ?_⟩
  rcases step_next h with ⟨-, rfl⟩ | ⟨m, rest, hm, ⟨i, hf, hi⟩ | henv⟩
  · exact hs
  · refine exec_keeps_undisturbed (s := s.consume rest) hs (fun hp ⟨he, hsel⟩ => ?_) hi
    obtain ⟨hmovable, htick⟩ := fetch_run hf
    obtain ⟨w, rfl, hw⟩ := htick (eq_tick_of_movable hmovable hsel)
    exact hduty w rest hm hw hp he
  · rcases fetch_env henv with rfl | ⟨dUs, dMs, rfl⟩ | ⟨low, rfl⟩ | rfl
    · exact trivial
    all_goals exact hs

end Sys2Proof.Machine

/-! PROOFS. TICK (R108, R111): its four cases, for any timing parameters, and what its fourth case, the executed tick, leaves. -/

namespace Sys2Proof.Machine

open Sys2Proof.Safety

/-! ### The executed tick as its micro-step and its completion action -/

/-- What an executed tick with this micro-step leaves, but for `ret`: the completion action follows where the micro-step is the
last of its sub-machine (R111). -/
def State.performed (s : State) (micro : State → Micro) : State :=
  if (micro { s with lastUs := s.nowUs }).2 then afterCompletion (micro { s with lastUs := s.nowUs }).1
  else (micro { s with lastUs := s.nowUs }).1

/-- A completion action writes PHASE, BYTE and IDX only (R120). -/
theorem afterCompletion_frame (s : State) :
    afterCompletion s =
      { s with phase := (afterCompletion s).phase, byte := (afterCompletion s).byte, idx := (afterCompletion s).idx } := by
  unfold afterCompletion
  cases s.phase
  case p4 => by_cases hmore : s.idx.toNat + 1 < s.len.toNat <;> simp [hmore]
  all_goals rfl

/-- A completion action reads PHASE, POS, IDX, LEN, SEG, BRIGHT and BYTE only. -/
theorem afterCompletion_congr {s u : State} (hphase : u.phase = s.phase) (hpos : u.pos = s.pos) (hidx : u.idx = s.idx)
    (hlen : u.len = s.len) (hseg : u.seg = s.seg) (hbright : u.bright = s.bright) (hbyte : u.byte = s.byte) :
    (afterCompletion u).phase = (afterCompletion s).phase ∧ (afterCompletion u).idx = (afterCompletion s).idx ∧
      (afterCompletion u).byte = (afterCompletion s).byte := by
  simp only [afterCompletion, hphase, hpos, hidx, hlen, hseg, hbright]
  cases hp : s.phase
  case p4 => by_cases hmore : s.idx.toNat + 1 < s.len.toNat <;> simp [hmore, hbyte]
  all_goals simp [hphase, hidx, hbyte, hp]

section Performed

variable {s : State} {micro : State → Micro}

/-- Everything an executed tick can change but `ret`: one pin and its event, LAST_US, STEP, BYTE, BITCNT, PHASE and IDX. -/
theorem performed_frame (hm : selectMicro (kindOf s.phase) s.stepCnt = some micro) :
    ∃ p v, s.performed micro = { s.drive p v with
      lastUs := s.nowUs, stepCnt := (s.performed micro).stepCnt, byte := (s.performed micro).byte,
      bitcnt := (s.performed micro).bitcnt, phase := (s.performed micro).phase, idx := (s.performed micro).idx } := by
  obtain ⟨p, v, hf⟩ := selectMicro_frame hm { s with lastUs := s.nowUs }
  refine ⟨p, v, ?_⟩
  unfold State.performed
  split
  · rw [afterCompletion_frame, hf]
    cases p <;> rfl
  · rw [hf]
    cases p <;> rfl

/-- Case 4 of R108, for every length CORE can hold. -/
theorem runSelected_eq_performed (hm : selectMicro (kindOf s.phase) s.stepCnt = some micro) (hlen : s.len.toNat ≤ 4) :
    runSelected complete s = .next (s.performed micro).recordRet := by
  obtain ⟨p, v, hf⟩ := selectMicro_frame hm { s with lastUs := s.nowUs }
  have hlen' : (micro { s with lastUs := s.nowUs }).1.len.toNat ≤ 4 := by rw [hf]; simpa using hlen
  simp only [runSelected, hm]
  cases hdone : (micro { s with lastUs := s.nowUs }).2
  case false =>
    rw [runMicro_notDone (Prod.ext rfl hdone)]
    simp [State.performed, hdone]
  case true =>
    rw [runMicro_done (Prod.ext rfl hdone) (complete_eq_afterCompletion hlen')]
    simp [State.performed, hdone]

/-- Before its last micro-step a sub-machine leaves PHASE and IDX (R120). -/
theorem performed_before_last (hm : selectMicro (kindOf s.phase) s.stepCnt = some micro)
    (hn : s.stepCnt ≠ lastStep (kindOf s.phase)) : (s.performed micro).phase = s.phase ∧ (s.performed micro).idx = s.idx := by
  obtain ⟨p, v, hf⟩ := selectMicro_frame hm { s with lastUs := s.nowUs }
  have hgoes : ¬ (micro { s with lastUs := s.nowUs }).2 = true := fun hdone => hn (step_eq_lastStep_of_done hm hdone)
  rw [State.performed, if_neg hgoes, hf]
  simp

/-- The last micro-step of a sub-machine leaves STEP and BITCNT at 0, and PHASE, IDX and BYTE to the completion action (R38,
R111). -/
theorem performed_last (hm : selectMicro (kindOf s.phase) s.stepCnt = some micro)
    (htriple : LegalTriple (kindOf s.phase) s.stepCnt s.bitcnt) (hn : s.stepCnt = lastStep (kindOf s.phase)) :
    (s.performed micro).stepCnt = 0 ∧ (s.performed micro).bitcnt = 0 ∧
      (s.performed micro).phase = (afterCompletion s).phase ∧ (s.performed micro).idx = (afterCompletion s).idx ∧
      (s.performed micro).byte = (afterCompletion s).byte := by
  have hform := selectMicro_form hm
  generalize hk : kindOf s.phase = k at htriple hform hn
  rw [hn] at hform htriple
  generalize hl : lastStep k = n at hform
  cases hform with
  | advance p v hlast => exact absurd (hl ▸ hlast) (lt_irrefl _)
  | shift => exact absurd hl (by decide)
  | last p v =>
    have hbitcnt : (if k = .byte then 0 else s.bitcnt) = 0 := by
      cases k
      case byte => rfl
      case start | stop => exact BitVec.eq_of_toNat_eq htriple.2
      case none => exact htriple.elim
    simp only [State.performed, if_true]
    rw [afterCompletion_frame]
    exact ⟨rfl, hbitcnt, afterCompletion_congr (by simp) (by simp) (by simp) (by simp) (by simp) (by simp) (by simp)⟩

end Performed

/-! ### The four cases -/

/-- Case 4 of R108, in the spec's own comparisons. -/
theorem executes_timing_iff (T : Timing) (s : State) : executes T s = true ↔
    s.phase ≠ .idle ∧ s.nowMs - s.startMs ≤ T.wdogMs ∧ T.minUs ≤ s.nowUs - s.lastUs := by
  simp [executes, watchdogExpired, tooEarly, and_assoc]

/-- A TICK that does not execute, by the condition of the watchdog (R108, cases 1 to 3). -/
theorem tickWith_quiet {T : Timing} {s : State}
    (h : ¬ (s.phase ≠ .idle ∧ s.nowMs - s.startMs ≤ T.wdogMs ∧ T.minUs ≤ s.nowUs - s.lastUs)) :
    tickWith T s = .next (if s.phase ≠ .idle ∧ T.wdogMs < s.nowMs - s.startMs then s.takeWatchdog else s).recordRet := by
  have hc : executes T s = false := Bool.eq_false_iff.mpr (mt (executes_timing_iff T s).mp h)
  simp [tickWith, hc, quietTick, watchdogExpired_iff]

/-- Settles O18: cases 1 to 3 are a quiet tick, and in case 4 the micro-step selected is performed, with the completion action
where it is the last. -/
theorem tickTakesOneOfFourCases : Obligations.TickTakesOneOfFourCases := by
  refine ⟨fun _ => rfl, fun T s hp => ?_, fun T s hp hw => ?_, fun T s hp hw he => ?_, fun T s micro hp hw he hm hlen => ?_⟩
  · rw [tickWith_quiet (by simp [hp])]
    simp [State.recordRet, hp]
  · rw [tickWith_quiet fun ⟨_, hle, _⟩ => BitVec.not_le.mpr hw hle, if_pos ⟨hp, hw⟩]
    rfl
  · rw [tickWith_quiet fun ⟨_, _, hle⟩ => BitVec.not_le.mpr he hle, if_neg fun ⟨_, hlt⟩ => BitVec.not_lt.mpr hw hlt]
    simp [State.recordRet, hp]
  · obtain ⟨p, v, hf⟩ := performed_frame hm
    have hret : (s.performed micro).tickRet = s.tickRet := by rw [hf]; simp
    refine ⟨(s.performed micro).recordRet, ?_, ?_, rfl, ?_⟩
    · rw [tickWith, (executes_timing_iff T s).mpr ⟨hp, hw, he⟩, whenEnabled_true, runSelected_eq_performed hm hlen]
    · rw [hf]
      rfl
    · exact congrArg (fun r => { s.performed micro with tickRet := r }) hret.symm

/-! ### The executed tick of a legal state -/

section LegalStep

variable {k : Kind} {n : BitVec 3} {c : BitVec 4}

/-- A legal STEP is at most the last of its sub-machine (R38, R46). -/
theorem step_le_lastStep (h : LegalTriple k n c) : n.toNat ≤ (lastStep k).toNat := by
  cases k <;> simp only [LegalTriple] at h
  case byte =>
    show n.toNat ≤ 6
    omega
  case start | stop => exact h.1

/-- A legal STEP selects a micro-step (R46, R78). -/
theorem exists_selectMicro (h : LegalTriple k n c) : ∃ micro, selectMicro k n = some micro := by
  have hsome : ∀ m : BitVec 3, m.toNat ≤ (lastStep k).toNat → (selectMicro k m).isSome = true := by
    cases k
    case none => exact h.elim
    all_goals decide
  exact Option.isSome_iff_exists.mp (hsome n (step_le_lastStep h))

end LegalStep

/-- Settles O19: the micro-step that a legal STEP selects is performed; before the last it leaves PHASE and IDX, and at the last
the completion action of the state follows. -/
theorem executedTickPerformsOneMicroStep : Obligations.ExecutedTickPerformsOneMicroStep := by
  intro s he htriple hlen
  obtain ⟨micro, hm⟩ := exists_selectMicro htriple
  obtain ⟨p, v, hf⟩ := performed_frame hm
  refine ⟨(s.performed micro).recordRet, p, v, (execTick_executing he).trans (runSelected_eq_performed hm hlen), ?_,
    performed_before_last hm, performed_last hm htriple⟩
  rw [hf]
  cases p <;> rfl

end Sys2Proof.Machine

/-! PROOFS. The host operations that do nothing or load a fixed transmission (R106, R110), the `idle` output after an ARM (R109),
the whole arming (R112), and the idle machine (R113, R216). -/

namespace Sys2Proof.Machine

open Sys2Proof.Safety

/-! ### CLEAR, NOP and the reserved codes -/

/-- CLEAR is an ARM with fixed operands (R106). -/
theorem exec_clear (s : State) : exec .clear s = exec (.arm 4 0 0) s := rfl

/-- Settles O11: what CLEAR loads is what the ARM of these operands loads, and every byte of them is zero. -/
theorem clearArmsFourBlankBytes : Obligations.ClearArmsFourBlankBytes := by
  intro s
  refine ⟨exec_clear s, fun hp => ⟨_, (exec_clear s).trans (exec_arm_ready hp 4 0 0), rfl, rfl, rfl, rfl, fun hm i hi => ?_⟩⟩
  have hblank : segByte 0 (clampLen 4) i = 0 := by simp [segByte]
  rw [State.armLoad_seg, memRead_memFill _ hm hi, hblank]

/-- On the command port every code but those of ARM, CLEAR and SETBR is an operation that does nothing (R83, R110). -/
theorem exec_decodeCommand_other {op : BitVec 3} (h2 : op.toNat ≠ 2) (h3 : op.toNat ≠ 3) (h4 : op.toNat ≠ 4) (len pos : BitVec 8)
    (seg : BitVec 32) (on : BitVec 1) (level : BitVec 3) (s : State) :
    exec (decodeCommand op len pos seg on level) s = .next s := by
  unfold decodeCommand
  split
  next h => exact absurd h h2
  next h => exact absurd h h3
  next h => exact absurd h h4
  all_goals rfl

/-- Settles O14: NOP and the reserved operations answer the state, and the other codes of the command port are decoded to one of
them. -/
theorem nopAndReservedCodesDoNothing : Obligations.NopAndReservedCodesDoNothing :=
  ⟨fun _ => ⟨rfl, rfl, rfl⟩, fun _ _ _ _ _ _ _ _ hm h2 h3 h4 =>
    (step_run hm rfl).trans (exec_decodeCommand_other h2 h3 h4 _ _ _ _ _ _)⟩

/-! ### The `idle` output after an ARM -/

/-- Settles O15: START_MS is the time of the ARM, so below a wrap of the counter the elapsed time is the advance. -/
theorem idleRisesWhenTheDeadlineHasPassed : Obligations.IdleRisesWhenTheDeadlineHasPassed := by
  intro s len pos seg dUs dMs hp hwrap
  refine ⟨_, _, exec_arm_ready hp len pos seg, isidleReturnsTheIdleOutput _, ?_, rfl⟩
  have helapsed : s.nowMs + BitVec.ofNat 32 dMs - s.nowMs = BitVec.ofNat 32 dMs := by bv_omega
  have hbelow : dMs % 4294967296 = dMs := Nat.mod_eq_of_lt hwrap
  simp [helapsed, BitVec.lt_def, hbelow]

/-! ### The whole arming -/

/-- Settles O17: the six moves are the arming, and its events are read from each of the four pairs of pins. -/
theorem armingEndsInAStartFromAnyPins : Obligations.ArmingEndsInAStartFromAnyPins := by
  intro s d1 d2 rest hp h1 h2 hm
  refine ⟨s.armed d1 d2 rest, run_arming hp h1 h2 hm, rfl, rfl, rfl, rfl, rfl, ?_⟩
  cases s.clk <;> cases s.dio <;> rfl

/-! ### Where no tick executes -/

/-- Where no tick executes every operation answers a next state: no micro-step and no completion action is performed. -/
theorem exec_next_of_not_executing {s : State} (h : ¬ Executing s) (i : Instr) : ∃ t, exec i s = .next t := by
  cases i
  case tick => exact ⟨_, execTick_quiet h⟩
  case nop | rsvd6 | rsvd7 | isidle | arm | clear | setbr | armRelc | armReld | armStrt | armDone | idle => exact ⟨_, rfl⟩
  case p0Wrmode | p1Stop | p2Start | p3Wraddr | p4Wrdata | p5Stop | p6Start | p7Wrctrl | p8Stop =>
    exact ⟨s, phaseWith_disabled fun he => h he.1⟩
  case b0Clklo | b1Dbit | b2Clkhi | b3Acklo | b4Ackrel | b5Ackhi | b6Ackend | s0Clkhi | s1Dhi | s2Dlo | t0Clklo | t1Dlo |
      t2Clkhi | t3Dhi =>
    simp only [exec]
    exact ⟨s, ustepWith_disabled fun he => h he.1⟩
  case cmdMode | cmdAddr | cmdCtrl | data => exact ⟨s, wirebyteWith_disabled fun he => h he.1⟩

/-- Settles O45: an idle machine executes no tick, and with PRE = 0 no sub-step is enabled; what is left to do, but for ARM and
CLEAR, is to set BRIGHT and the outputs. -/
theorem idleAndReadyIsQuiescent : Obligations.IdleAndReadyIsQuiescent := by
  intro i s hidle hready harm hclear
  obtain ⟨t, ht⟩ := exec_next_of_not_executing (fun he => he.1 hidle) i
  refine ⟨t, ht, ?_⟩
  cases exec_did ht with
  | nothing | brightSet | idleRead | idleEntry => rfl
  | tickQuiet =>
    rcases quietTick_eq s with ⟨-, hq⟩ | ⟨hw, -⟩
    · rw [hq]
      rfl
    · exact absurd hidle hw.1
  | ticked he => exact absurd hidle he.1.1
  | armed hi => exact absurd hi (harm _ _ _)
  | cleared hi => exact absurd hi hclear
  | relc _ hp | reld _ hp | strt _ hp | done _ hp => exact absurd (hready.symm.trans hp) nofun

end Sys2Proof.Machine

/-! PROOFS. The rows of the phase program (R77, R120 to R129) at and before the last micro-step of their sub-machine, and the
whole transmission (R131, R217). -/

namespace Sys2Proof.Machine

open Sys2Proof.Safety

/-! ### Before the last micro-step -/

/-- Before its last micro-step a sub-machine goes on, and no completion action follows (R38, R120). -/
theorem runSelected_before_last {s : State} {micro : State → Micro}
    (hm : selectMicro (kindOf s.phase) s.stepCnt = some micro) (hn : s.stepCnt ≠ lastStep (kindOf s.phase)) :
    runSelected complete s = .next (micro { s with lastUs := s.nowUs }).1.recordRet := by
  have hgoes : (micro { s with lastUs := s.nowUs }).2 = false :=
    Bool.eq_false_iff.mpr fun hdone => hn (step_eq_lastStep_of_done hm hdone)
  simp only [runSelected, hm]
  exact runMicro_notDone (Prod.ext rfl hgoes)

/-- Settles O29: the row of PHASE is the executed tick, whose micro-step is not the last and leaves PHASE active. -/
theorem phaseOnlyDelegatesBeforeItsLastStep : Obligations.PhaseOnlyDelegatesBeforeItsLastStep := by
  intro s i he htriple hn hi
  obtain ⟨micro, hm⟩ := exists_selectMicro htriple
  obtain ⟨p, v, hf⟩ := selectMicro_frame hm { s with lastUs := s.nowUs }
  have hactive : (s.phase == .idle) = false := beq_false_of_ne he.1
  refine ⟨_, p, v, (exec_of_executesTick ⟨he, .inr (.inl hi)⟩).trans (runSelected_before_last hm hn), ?_⟩
  rw [hf]
  cases p <;> simp [State.recordRet, State.drive, ticked, hactive]

/-! ### At the last micro-step -/

/-- `s` after a last micro-step that puts `v` on `p` and leaves BITCNT at `c`, before the completion action (R38, R111). -/
def State.unitEnded (s : State) (p : Pin) (v : Level) (c : BitVec 4) : State :=
  { { s with lastUs := s.nowUs }.drive p v with bitcnt := c, stepCnt := 0 }

section LastStep

variable {s t : State} {p : Phase} {completion : State → Outcome}

/-- The row of a phase at a last micro-step: the completion action follows in the same step (R111). -/
theorem phaseWith_last {micro : State → Micro} {q : Pin} {v : Level} {c : BitVec 4} (he : Executing s) (hp : s.phase = p)
    (hm : selectMicro (kindOf p) s.stepCnt = some micro)
    (hmicro : micro { s with lastUs := s.nowUs } = (s.unitEnded q v c, true)) (hc : completion (s.unitEnded q v c) = .next t) :
    phaseWith Config.timing p completion s = .next t.recordRet := by
  rw [phaseWith_enabled he hp]
  simp only [runSelected, hp, hm]
  exact runMicro_done hmicro hc

/-- The row of a byte phase at B6 (R147). -/
theorem phaseWith_b6 (he : Executing s) (hn : s.stepCnt = 6) (hk : kindOf p = .byte) (hp : s.phase = p)
    (hc : completion (s.unitEnded .clk .low 0) = .next t) : phaseWith Config.timing p completion s = .next t.recordRet :=
  phaseWith_last (micro := microB6) he hp (by rw [hk, hn]; rfl) rfl hc

/-- The row of a Start phase at S2 (R163). -/
theorem phaseWith_s2 (he : Executing s) (hk : kindOf p = .start) (hp : s.phase = p) (hn : s.stepCnt = 2)
    (hc : completion (s.unitEnded .dio .low s.bitcnt) = .next t) : phaseWith Config.timing p completion s = .next t.recordRet :=
  phaseWith_last (micro := microS2) he hp (by rw [hk, hn]; rfl) rfl hc

/-- The row of a Stop phase at T3 (R167). -/
theorem phaseWith_t3 (he : Executing s) (hk : kindOf p = .stop) (hp : s.phase = p) (hn : s.stepCnt = 3)
    (hc : completion (s.unitEnded .dio .released s.bitcnt) = .next t) :
    phaseWith Config.timing p completion s = .next t.recordRet :=
  phaseWith_last (micro := microT3) he hp (by rw [hk, hn]; rfl) rfl hc

/-- The completion of phase 3 loads the first byte of the buffer (R124). -/
theorem completeP3_loads {b : Byte} (hb : memRead s.seg 0 = some b) :
    completeP3 s = .next { s with idx := 0, byte := b, phase := .p4 } := by
  simp only [completeP3, hb]

/-- The completion of phase 4 loads the next byte of the buffer while there is one (R125). -/
theorem completeP4_more {b : Byte} (hmore : s.idx.toNat + 1 < s.len.toNat) (hb : memRead s.seg (s.idx.toNat + 1) = some b) :
    completeP4 s = .next { s with idx := s.idx + 1, byte := b } := by
  simp only [completeP4, hmore, hb, if_true]

/-- The completion of phase 4 leads to phase 5 after the last byte (R125). -/
theorem completeP4_last (hlast : ¬ s.idx.toNat + 1 < s.len.toNat) :
    completeP4 s = .next { s with idx := s.idx + 1, phase := .p5 } := if_neg hlast

end LastStep

/-- Settles O27: at B6 the row of a byte phase is its completion action on the state that B6 leaves. -/
theorem bytePhasesComplete : Obligations.BytePhasesComplete := by
  intro s he hn
  refine ⟨fun hp => phaseWith_b6 (completion := completeP0) he hn rfl hp rfl,
    fun b hp hb => phaseWith_b6 he hn rfl hp (completeP3_loads hb),
    fun b hp hmore hb => (phaseWith_b6 he hn rfl hp (completeP4_more hmore hb)).trans ?_,
    fun hp hlast => phaseWith_b6 he hn rfl hp (completeP4_last hlast),
    fun hp => phaseWith_b6 (completion := completeP7) he hn rfl hp rfl⟩
  have hactive : (s.phase == .idle) = false := beq_false_of_ne he.1
  simp [State.recordRet, State.unitEnded, State.drive, ticked, hactive]

/-- Settles O28: at S2 or T3 the row of a line phase is its completion action on the state that the step leaves. -/
theorem linePhasesComplete : Obligations.LinePhasesComplete := fun _ he =>
  ⟨fun hp hn => phaseWith_t3 (completion := completeP1) he rfl hp hn rfl,
    fun hp hn => phaseWith_s2 (completion := completeP2) he rfl hp hn rfl,
    fun hp hn => phaseWith_t3 (completion := completeP5) he rfl hp hn rfl,
    fun hp hn => phaseWith_s2 (completion := completeP6) he rfl hp hn rfl,
    fun hp hn => phaseWith_t3 (completion := completeP8) he rfl hp hn rfl⟩

/-! ### The ticks of a whole transmission -/

theorem runMoves_add (m n : Nat) : runMoves (m + n) = runMoves m ++ runMoves n := by
  rw [runMoves, List.replicate_add, List.flatten_append, ← runMoves, ← runMoves]

/-- A transmission is active before each of its ticks (R108). -/
theorem Sends.exists_active {es : List PinEvent} {s t : State} (h : Sends es s t) {n : Nat} (hn : n < es.length) :
    ∃ u, Sends (es.take n) s u ∧ u.phase ≠ .idle := by
  induction h generalizing n with
  | nil => exact absurd hn (Nat.not_lt_zero n)
  | @cons e es s s' t htick _ ih =>
    cases n with
    | zero => exact ⟨s, .nil s, htick.active⟩
    | succ n =>
      obtain ⟨u, hu, hactive⟩ := ih (Nat.lt_of_succ_lt_succ hn)
      exact ⟨u, .cons htick hu, hactive⟩

section Intervals

variable {e : PinEvent} {es : List PinEvent} {s t : State} {rest : List Move}

/-- After a minimum interval a tick executes, if the counter has not wrapped since the last one (R12, R108). -/
theorem minUs_le_elapsed (h : (s.nowUs - s.lastUs).toNat + Config.timing.minUs.toNat < 2 ^ 32) :
    Config.timing.minUs ≤ s.nowUs + Config.timing.minUs - s.lastUs := by
  generalize Config.timing.minUs = m at *
  bv_omega

/-- The first minimum interval and its tick, from a state with a tick of any earlier time (R87). -/
theorem TickSends.run_first_interval (h : TickSends e s t) (hw : s.nowMs - s.startMs ≤ Config.timing.wdogMs)
    (hus : (s.nowUs - s.lastUs).toNat + Config.timing.minUs.toNat < 2 ^ 32)
    (hm : s.moves = .time Config.timing.minUs.toNat 0 :: .present tickWord :: rest) :
    run 2 s = .next (t.sent s [e] (s.nowUs + Config.timing.minUs) rest) := by
  have htime : step s = .next (s.amid { s.consume (.present tickWord :: rest) with nowUs := s.nowUs + Config.timing.minUs }) :=
    (step_time hm).trans (by simp [State.advance, State.consume, State.amid])
  have he : Executing (s.amid { s.consume (.present tickWord :: rest) with nowUs := s.nowUs + Config.timing.minUs }) :=
    ⟨h.active, hw, minUs_le_elapsed hus⟩
  rw [run_succ htime, run_succ (h.step_tick rfl he), run_zero]
  exact congrArg Host.Outcome.next (emit_eq_sent (u := s) (es := []) rfl rfl (List.append_nil _).symm rfl)

/-- `RUN` from a state with a tick of any earlier time puts the events of its ticks on the wire (R87). -/
theorem run_sends_intervals (h : Sends (e :: es) s t) (hw : s.nowMs - s.startMs ≤ Config.timing.wdogMs)
    (hus : (s.nowUs - s.lastUs).toNat + Config.timing.minUs.toNat < 2 ^ 32)
    (hm : s.moves = runMoves (es.length + 1) ++ rest) :
    ∃ now, run (2 * (es.length + 1)) s = .next (t.sent s (e :: es) now rest) := by
  cases h with
  | cons htick hs =>
    rw [Nat.mul_succ, Nat.add_comm]
    exact ⟨_, (run_add (htick.run_first_interval hw hus hm) _).trans (run_sends hs s _ rest (htick.watchdog ▸ hw))⟩

/-- `RUN` with no more ticks than a transmission has leaves the phase that they lead to. -/
theorem run_sends_phase (h : Sends es s t) (hw : s.nowMs - s.startMs ≤ Config.timing.wdogMs)
    (hus : (s.nowUs - s.lastUs).toNat + Config.timing.minUs.toNat < 2 ^ 32) (hm : s.moves = runMoves es.length ++ rest) :
    ∃ u, run (2 * es.length) s = .next u ∧ u.phase = t.phase := by
  cases es with
  | nil =>
    cases h
    exact ⟨s, run_zero s, rfl⟩
  | cons e es =>
    obtain ⟨now, hrun⟩ := run_sends_intervals h hw hus hm
    exact ⟨_, hrun, rfl⟩

end Intervals

/-- From any pads, a whole transmission leaves both released: its last two events are those of its last stop (R168). -/
theorem padAfter_transmissionEvents (p : Pin) (v : Level) (pos : BitVec 2) (segs : List Byte) (bright : BitVec 4) :
    padAfter p v (transmissionEvents pos segs bright) = .released := by
  rw [transmissionEvents, ← List.append_assoc, padAfter_append]
  cases p <;> rfl

/-- Settles O34: the ticks send the transmission that the registers hold, one event each, and the phase that a shorter run leads
to is active. -/
theorem wholeTransmissionEmitsItsFrames : Obligations.WholeTransmissionEmitsItsFrames := by
  intro s rest hphase hstep hbitcnt hbyte hpos hlen hw hus hm
  have harmed : s.atPhase .p0 0x40 s.idx = s := by rw [State.atPhase, ← hphase, ← hstep, ← hbitcnt, ← hbyte]
  have hsends := sends_transmission (i := s.idx) hpos hlen
  have hpads := fun p v => padAfter_transmissionEvents p v s.pos (segBytes s) s.bright
  have hcount : (transmissionEvents s.pos (segBytes s) s.bright).length = 102 + 28 * s.len.toNat := by
    rw [length_transmissionEvents, segBytes, List.length_map, List.length_range]
  rw [harmed] at hsends
  generalize transmissionEvents s.pos (segBytes s) s.bright = es at *
  constructor
  · intro n hn
    rw [← hcount] at hn hm
    obtain ⟨u, hu, hactive⟩ := hsends.exists_active hn
    have htaken : (es.take n).length = n := List.length_take_of_le hn.le
    have hmoves : s.moves = runMoves (es.take n).length ++ (runMoves (es.length - n) ++ rest) := by
      rw [hm, htaken, ← List.append_assoc, ← runMoves_add, Nat.add_sub_cancel' hn.le]
    obtain ⟨t, hrun, ht⟩ := run_sends_phase hu hw hus hmoves
    exact ⟨t, htaken ▸ hrun, ht ▸ hactive⟩
  · obtain ⟨e, es', rfl⟩ := List.exists_cons_of_length_pos (by rw [hcount]; omega)
    rw [← hcount] at hm ⊢
    obtain ⟨now, hrun⟩ := run_sends_intervals hsends hw hus hm
    exact ⟨_, hrun, rfl, rfl, rfl, hpads .clk s.clk, hpads .dio s.dio, rfl, rfl, rfl, rfl, rfl⟩

end Sys2Proof.Machine

/-! PROOFS. The rows of the micro-steps (R78, R141 to R147, R163, R167), the 28 ticks of a byte (R148), and where start and stop
conditions arise (R88). -/

namespace Sys2Proof.Machine

open Sys2Proof.Safety

/-! ### The rows of the micro-steps -/

/-- Of the active phases only 8 ends the transmission (R129). -/
theorem afterCompletion_phase_beq_idle {s : State} (h : s.phase ≠ .idle) :
    ((afterCompletion s).phase == .idle) = decide (s.phase = .p8) := by
  unfold afterCompletion
  cases hp : s.phase
  case p4 => by_cases hmore : s.idx.toNat + 1 < s.len.toNat <;> simp [hmore]
  case idle => exact absurd hp h
  all_goals rfl

/-- `ret` of a completing tick, carried through the completion action: 1 at the end of phase 8 only (R39, R129). -/
theorem recordRet_afterCompletion {s : State} (h : s.phase ≠ .idle) :
    (afterCompletion s).recordRet = afterCompletion { s with tickRet := some (decide (s.phase = .p8)) } := by
  refine Eq.trans ?_ (afterCompletion_amid s { s with tickRet := some (decide (s.phase = .p8)) }).symm
  rw [State.recordRet, afterCompletion_phase_beq_idle h, afterCompletion_frame s]
  rfl

/-- A phase of another kind than STOP is not the last (R42). -/
theorem decide_eq_p8_of_not_stop {p : Phase} (h : kindOf p ≠ .stop) : decide (p = .p8) = false :=
  decide_eq_false fun hp => h (congrArg kindOf hp)

section Row

variable {s : State} {k : Kind} {n m : BitVec 3} {micro : State → Micro} {p : Pin} {v : Level} {b : Byte} {c : BitVec 4}

/-- A row whose micro-step is not the last of its sub-machine is an executed tick that puts `v` on `p` and goes on. -/
theorem ustepWith_goesOn (he : Executing s) (hk : kindOf s.phase = k) (hn : s.stepCnt = n)
    (hmicro : micro { s with lastUs := s.nowUs } =
      ({ { s with lastUs := s.nowUs }.drive p v with byte := b, bitcnt := c, stepCnt := m }, false)) :
    ustepWith Config.timing k n micro s = .next { ticked s p v false with byte := b, bitcnt := c, stepCnt := m } := by
  have hactive : (s.phase == .idle) = false := beq_false_of_ne he.1
  rw [ustepWith_enabled he hk hn, runMicro_notDone hmicro]
  cases p <;> simp [State.recordRet, State.drive, ticked, hactive]

/-- A row whose micro-step is the last of its sub-machine is an executed tick with the completion action in the same step. -/
theorem ustepWith_last (he : Executing s) (hlen : s.len.toNat ≤ 4) (hk : kindOf s.phase = k) (hn : s.stepCnt = n)
    (hmicro : micro { s with lastUs := s.nowUs } = (s.unitEnded p v c, true)) :
    ustepWith Config.timing k n micro s =
      .next (afterCompletion { ticked s p v (decide (s.phase = .p8)) with bitcnt := c, stepCnt := 0 }) := by
  have hphase : (s.unitEnded p v c).phase = s.phase := by simp [State.unitEnded]
  have hlen' : (s.unitEnded p v c).len.toNat ≤ 4 := by simpa [State.unitEnded] using hlen
  rw [ustepWith_enabled he hk hn, runMicro_done hmicro (complete_eq_afterCompletion hlen'),
    recordRet_afterCompletion (hphase ▸ he.1), hphase]
  cases p <;> rfl

end Row

/-- Settles O23: each row is an executed tick whose micro-step goes on. -/
theorem bitCellMicroSteps : Obligations.BitCellMicroSteps :=
  ⟨rfl, rfl, rfl, fun _ he hk =>
    ⟨fun hn => ustepWith_goesOn (micro := microB0) he hk hn rfl, fun hn => ustepWith_goesOn (micro := microB1) he hk hn rfl,
      fun hn => ustepWith_goesOn (micro := microB2) he hk hn rfl⟩⟩

/-- Settles O24: each row is an executed tick whose micro-step goes on and reads no line. -/
theorem acknowledgmentSlotMicroSteps : Obligations.AcknowledgmentSlotMicroSteps :=
  ⟨rfl, rfl, rfl, fun _ he hk =>
    ⟨fun hn => ustepWith_goesOn (micro := microB3) he hk hn rfl, fun hn => ustepWith_goesOn (micro := microB4) he hk hn rfl,
      fun hn => ustepWith_goesOn (micro := microB5) he hk hn rfl⟩⟩

/-- Settles O26: each row is an executed tick whose micro-step is the last, and only a Stop phase can be phase 8. -/
theorem lastMicroStepsCompleteThePhase : Obligations.LastMicroStepsCompleteThePhase :=
  ⟨rfl, rfl, rfl, fun s he hlen =>
    ⟨fun hk hn => decide_eq_p8_of_not_stop (p := s.phase) (hk ▸ nofun) ▸ ustepWith_last (micro := microB6) he hlen hk hn rfl,
      fun hk hn => decide_eq_p8_of_not_stop (p := s.phase) (hk ▸ nofun) ▸ ustepWith_last (micro := microS2) he hlen hk hn rfl,
      fun hk hn => ustepWith_last (micro := microT3) he hlen hk hn rfl⟩⟩

/-! ### The 28 ticks of a byte -/

/-- One more minimum interval after `n` of them (R12). -/
theorem add_interval_succ (now d : Time) (n : Nat) :
    now + d + BitVec.ofNat 32 (n * d.toNat) = now + BitVec.ofNat 32 ((n + 1) * d.toNat) := by
  rw [Nat.succ_mul, BitVec.ofNat_add, BitVec.ofNat_toNat, BitVec.setWidth_eq, BitVec.add_assoc, BitVec.add_comm d]

/-- `RUN` from a state with a tick of any earlier time takes one minimum interval for each event it puts on the wire (R87). -/
theorem run_sends_timed {es : List PinEvent} {s t : State} {rest : List Move} (h : Sends es s t) (hne : es ≠ [])
    (hw : s.nowMs - s.startMs ≤ Config.timing.wdogMs) (hus : (s.nowUs - s.lastUs).toNat + Config.timing.minUs.toNat < 2 ^ 32)
    (hm : s.moves = runMoves es.length ++ rest) :
    run (2 * es.length) s =
      .next (t.sent s es (s.nowUs + BitVec.ofNat 32 (es.length * Config.timing.minUs.toNat)) rest) := by
  cases h with
  | nil => exact absurd rfl hne
  | cons htick hs =>
    rw [List.length_cons, Nat.mul_succ, Nat.add_comm, ← add_interval_succ]
    exact (run_add (htick.run_first_interval hw hus hm) _).trans (run_sends hs s _ rest (htick.watchdog ▸ hw))

/-- From any pads, a byte leaves the clock line low and the data line released (R148). -/
theorem padAfter_byteEvents_clk (v : Level) (b : Byte) : padAfter .clk v (byteEvents b) = .low := by
  rw [byteEvents, padAfter_append]
  rfl

theorem padAfter_byteEvents_dio (v : Level) (b : Byte) : padAfter .dio v (byteEvents b) = .released := by
  rw [byteEvents, padAfter_append]
  rfl

/-- Settles O32: the 28 ticks send the events of the byte, which fix both pads, and no byte phase is the last. -/
theorem oneByteTakesTwentyEightTicks : Obligations.OneByteTakesTwentyEightTicks := by
  intro s rest hk hn hc hlen hw hus hm
  have hactive : s.phase ≠ .idle := mt (kindOf_eq_none_iff _).mpr (hk ▸ nofun)
  have hret : ((afterCompletion { s with byte := 0, bitcnt := 0, stepCnt := 0 }).phase == .idle) = false :=
    (afterCompletion_phase_beq_idle (s := { s with byte := 0, bitcnt := 0, stepCnt := 0 }) hactive).trans
      (decide_eq_p8_of_not_stop (hk ▸ nofun))
  have hrun := run_sends_timed (sends_byte hk hn hc hlen) nofun hw hus hm
  refine ⟨_, hrun, rfl, rfl, congrArg some hret, rfl, ?_⟩
  simp only [State.sent, padAfter_byteEvents_clk, padAfter_byteEvents_dio, hret]

/-! ### Start and stop conditions -/

/-- Only a change of the data line while the clock line is released is a condition (R72, R88). -/
theorem not_condition_of_quiet {c d : Level} {e : PinEvent} (h : e.pin = .clk ∨ c = .low ∨ e.level = d) :
    ¬ IsStart c d e ∧ ¬ IsStop c d e := by
  constructor <;> rintro ⟨rfl, rfl, rfl⟩ <;> simp at h

/-- The event of a micro-step that is neither S2 nor T3, where it is no condition. -/
theorem exists_event_of_quiet {w w' : List PinEvent} {c d : Level} {e : PinEvent} {atS2 atT3 : Prop} (hw : w' = w ++ [e])
    (h : e.pin = .clk ∨ c = .low ∨ e.level = d) (hS2 : ¬ atS2) (hT3 : ¬ atT3) :
    ∃ e, w' = w ++ [e] ∧ (IsStart c d e ↔ atS2) ∧ (IsStop c d e ↔ atT3) :=
  ⟨e, hw, iff_of_false (not_condition_of_quiet h).1 hS2, iff_of_false (not_condition_of_quiet h).2 hT3⟩

/-- On the pins of the program, S2 makes a start condition, T3 a stop condition, and no other micro-step makes one. -/
theorem selectMicro_condition {s : State} {micro : State → Micro} (h : selectMicro (kindOf s.phase) s.stepCnt = some micro)
    (hs : ProgramPins s) :
    ∃ e, (micro s).1.wire = s.wire ++ [e] ∧
      (IsStart s.clk s.dio e ↔ kindOf s.phase = .start ∧ s.stepCnt.toNat = 2) ∧
      (IsStop s.clk s.dio e ↔ kindOf s.phase = .stop ∧ s.stepCnt.toNat = 3) := by
  unfold ProgramPins at hs
  unfold selectMicro at h
  split at h <;> cases h <;> rename_i hk hn <;> simp only [hk, hn] at hs ⊢
  case h_1 | h_4 | h_7 | h_11 => exact exists_event_of_quiet (e := ⟨.clk, .low⟩) rfl (.inl rfl) (by decide) (by decide)
  case h_3 | h_6 | h_8 | h_13 =>
    exact exists_event_of_quiet (e := ⟨.clk, .released⟩) rfl (.inl rfl) (by decide) (by decide)
  case h_2 => exact exists_event_of_quiet rfl (.inr (.inl hs)) (by decide) (by decide)
  case h_5 => exact exists_event_of_quiet (e := ⟨.dio, .released⟩) rfl (.inr (.inl hs)) (by decide) (by decide)
  case h_9 => exact exists_event_of_quiet (e := ⟨.dio, .released⟩) rfl (.inr (.inr hs.2.symm)) (by decide) (by decide)
  case h_12 => exact exists_event_of_quiet (e := ⟨.dio, .low⟩) rfl (.inr (.inl hs.1)) (by decide) (by decide)
  case h_10 => exact ⟨⟨.dio, .low⟩, rfl, by simp [IsStart, hs], by simp [IsStop]⟩
  case h_14 => exact ⟨⟨.dio, .released⟩, rfl, by simp [IsStart], by simp [IsStop, hs]⟩

/-- The trace after an executed tick is the trace after its micro-step: no completion action writes a pin (R120). -/
theorem runSelected_wire {s t : State} (h : runSelected complete s = .next t) :
    ∃ micro, selectMicro (kindOf s.phase) s.stepCnt = some micro ∧ t.wire = (micro { s with lastUs := s.nowUs }).1.wire := by
  obtain ⟨micro, u, hm, rfl, ⟨-, rfl⟩ | ⟨-, hc⟩⟩ := runSelected_next h
  · exact ⟨micro, hm, rfl⟩
  · exact ⟨micro, hm, (congrArg State.wire (complete_frame hc) :)⟩

/-- Settles O41: with no arming in progress the pins are the program's, and the tick's event is its micro-step's. -/
theorem startsAndStopsOnlyAtS2AndT3 : Obligations.StartsAndStopsOnlyAtS2AndT3 := by
  intro s t hs hp he h
  obtain ⟨micro, hm, hwire⟩ := runSelected_wire ((execTick_executing he).symm.trans h)
  have hcond := selectMicro_condition (s := { s with lastUs := s.nowUs }) hm ((undisturbed_ready hp).mp hs)
  simp only [hwire, BitVec.toNat_eq]
  exact hcond

end Sys2Proof.Machine

/-! PROOFS. The line conditions (R160 to R168): the rows of their micro-steps before the last, and the fixed events of a whole Start
and a whole Stop, for any length LEN can hold. -/

namespace Sys2Proof.Machine

open Sys2Proof.Safety

/-! ### The rows before the last step -/

/-- Settles O25: each row is an executed tick whose micro-step goes on. -/
theorem lineConditionMicroSteps : Obligations.LineConditionMicroSteps :=
  ⟨rfl, rfl, rfl, rfl, rfl, fun _ he =>
    ⟨fun hk =>
      ⟨fun hn => ustepWith_goesOn (micro := microS0) he hk hn rfl, fun hn => ustepWith_goesOn (micro := microS1) he hk hn rfl⟩,
    fun hk =>
      ⟨fun hn => ustepWith_goesOn (micro := microT0) he hk hn rfl, fun hn => ustepWith_goesOn (micro := microT1) he hk hn rfl,
        fun hn => ustepWith_goesOn (micro := microT2) he hk hn rfl⟩⟩⟩

/-! ### A whole Start and a whole Stop -/

/-- Only phases 3 and 4, which are byte phases, read SEG: in any other the completion action needs no bound on LEN. -/
theorem complete_of_not_byte {s : State} (hk : kindOf s.phase ≠ .byte) : complete s = .next (afterCompletion s) := by
  unfold complete afterCompletion
  cases hp : s.phase
  case p0 | p3 | p4 | p7 => exact absurd (congrArg kindOf hp) hk
  all_goals rfl

/-- The last micro-step of a line condition, from any registers, with the completion action of the phase. -/
theorem tickSends_lineLast {s : State} {micro : State → Micro} {p : Pin} {v : Level} (hk : kindOf s.phase ≠ .byte)
    (hm : selectMicro (kindOf s.phase) s.stepCnt = some micro)
    (hmicro : ∀ u, micro (s.amid u) = ({ (s.amid u).drive p v with stepCnt := 0 }, true)) :
    TickSends ⟨p, v⟩ s (afterCompletion { s with stepCnt := 0 }) := by
  intro u
  have hcomplete : complete { (s.amid { u with lastUs := u.nowUs }).drive p v with stepCnt := 0 } =
      .next ((afterCompletion { s with stepCnt := 0 }).amid ({ u with lastUs := u.nowUs }.drive p v)) := by
    rw [← afterCompletion_amid]
    cases p <;> exact complete_of_not_byte hk
  rw [runSelected_amid hm, runMicro_done (s := s.amid u) (hmicro { u with lastUs := u.nowUs }) hcomplete]
  cases p <;> rfl

/-- The Start generator from its first step, for any LEN: S0, S1, S2, with the completion action of the phase (R161 to R163). -/
theorem sends_start_anyLen {s : State} (hk : kindOf s.phase = .start) (hn : s.stepCnt = 0) :
    Sends startEvents s (afterCompletion { s with stepCnt := 0 }) :=
  .cons (tickSends_goesOn (micro := microS0) (n := 1) (by rw [hk, hn]; rfl) fun _ => rfl)
    (.cons (tickSends_goesOn (micro := microS1) (n := 2) (by simp only [hk]; rfl) fun _ => rfl)
      (.cons (tickSends_lineLast (micro := microS2) (hk ▸ nofun) (by simp only [hk]; rfl) fun _ => rfl) (.nil _)))

/-- The Stop generator from its first step, for any LEN: T0 to T3, with the completion action of the phase (R164 to R167). -/
theorem sends_stop_anyLen {s : State} (hk : kindOf s.phase = .stop) (hn : s.stepCnt = 0) :
    Sends stopEvents s (afterCompletion { s with stepCnt := 0 }) :=
  .cons (tickSends_goesOn (micro := microT0) (n := 1) (by rw [hk, hn]; rfl) fun _ => rfl)
    (.cons (tickSends_goesOn (micro := microT1) (n := 2) (by simp only [hk]; rfl) fun _ => rfl)
      (.cons (tickSends_goesOn (micro := microT2) (n := 3) (by simp only [hk]; rfl) fun _ => rfl)
        (.cons (tickSends_lineLast (micro := microT3) (hk ▸ nofun) (by simp only [hk]; rfl) fun _ => rfl) (.nil _))))

/-- The completion action leaves STEP to the sub-machine (R120). -/
theorem afterCompletion_stepCnt (s : State) : (afterCompletion s).stepCnt = s.stepCnt :=
  (congrArg State.stepCnt (afterCompletion_frame s) :)

/-- Settles O33: the ticks send the events of the condition, whose last event on each pin fixes both pads, and lead where the
completion action of the phase does. -/
theorem lineConditionsAreFixedEventSequences : Obligations.LineConditionsAreFixedEventSequences := by
  intro s rest hn hw hus
  have hstep : (afterCompletion { s with stepCnt := 0 }).stepCnt = 0 := afterCompletion_stepCnt _
  obtain ⟨hphase, -, hbyte⟩ := afterCompletion_congr (s := s) (u := { s with stepCnt := 0 }) rfl rfl rfl rfl rfl rfl rfl
  constructor
  · intro hk hm
    exact ⟨_, run_sends_timed (sends_start_anyLen hk hn) nofun hw hus hm, rfl, rfl, rfl, hstep, hphase, hbyte, rfl⟩
  · intro hk hm
    exact ⟨_, run_sends_timed (sends_stop_anyLen hk hn) nofun hw hus hm, rfl, rfl, rfl, hstep, hphase, hbyte, rfl⟩

end Sys2Proof.Machine

/-! PROOFS. Faults, inputs and the watchdog (R180 to R192): no step stops, the receiver is never observed, the moves of the
environment change their inputs alone, and the watchdog's entry writes PHASE alone. -/

namespace Sys2Proof.Machine

open Sys2Proof.Safety

/-! ### No step stops -/

/-- TICK never stops in a state with the invariants: where it executes, STEP selects a micro-step and no completion action reads
SEG out of range (R46, R50). -/
theorem exec_tick_next {s : State} (hs : Invariants s) : ∃ t, exec .tick s = .next t := by
  by_cases he : Executing s
  · obtain ⟨micro, hm⟩ := exists_selectMicro ((legalStep_active he.1).mp hs.legalStep)
    exact ⟨_, (execTick_executing he).trans (runSelected_eq_performed hm hs.legalIndex.1)⟩
  · exact ⟨_, execTick_quiet he⟩

/-- No operation that a move can bring stops in a state with the invariants. -/
theorem exec_next_of_movable {i : Instr} {s : State} (hi : Movable i) (hs : Invariants s) : ∃ t, exec i s = .next t := by
  cases i
  case tick => exact exec_tick_next hs
  case nop | rsvd6 | rsvd7 | isidle | arm | clear | setbr | armRelc | armReld | armStrt | armDone => exact ⟨_, rfl⟩
  -- The rows of the other three levels are brought by no move.
  all_goals rcases hi with ⟨_, hw⟩ | ⟨_, hw⟩ <;> cases hw

/-- The only move that the fetch refuses is a presented word that is no HOSTOP word (R79, R83). -/
theorem fetch_stop {m : Move} {s : State} {r : Refusal} (h : fetch m s = .stop r) :
    ∃ w, m = .present w ∧ (Code.hostop w).wellFormed ≠ true := by
  cases m with
  | rst | time | receiver | command => cases h
  | armseq =>
    simp only [fetch] at h
    split at h <;> cases h
  | present w =>
    simp only [fetch] at h
    split at h <;> cases h
    next e hd =>
    refine ⟨w, rfl, fun hw => ?_⟩
    obtain ⟨i, hi⟩ := (decoderAcceptsExactlyTheSpecsCodes (.hostop w)).mp hw
    exact absurd (hd.symm.trans hi) nofun

/-- A step of a state with the invariants and a schedule of HOSTOP words answers a next state. -/
theorem step_progress {s : State} (hs : Invariants s) (hsched : HostopSchedule s) : ∃ t, step s = .next t := by
  cases hm : s.moves with
  | nil => exact ⟨_, step_nil hm⟩
  | cons m rest =>
    cases hf : fetch m (s.consume rest) with
    | run i =>
      rw [step_run hm hf]
      exact exec_next_of_movable (fetch_run hf).1 (invariants_of_eq hs rfl rfl rfl rfl rfl rfl rfl)
    | env t => exact ⟨t, step_env hm hf⟩
    | stop r =>
      obtain ⟨w, rfl, hw⟩ := fetch_stop hf
      exact absurd (hsched w (by simp [hm])) hw

/-- A step takes one move off the schedule, and nothing puts one on it (log 4). -/
theorem step_moves {s t : State} (h : step s = .next t) : t.moves = s.moves.tail := by
  rcases step_next h with ⟨hm, rfl⟩ | ⟨m, rest, hm, ⟨i, -, hi⟩ | henv⟩ <;> rw [hm]
  · rfl
  · obtain ⟨-, -, -, hmoves⟩ := exec_keeps_inputs hi
    exact hmoves
  · rcases fetch_env henv with rfl | ⟨dUs, dMs, rfl⟩ | ⟨low, rfl⟩ | rfl <;> rfl

/-- A step keeps the schedule one of HOSTOP words: what is left of it was in it before. -/
theorem step_keeps_hostopSchedule {s t : State} (hs : HostopSchedule s) (h : step s = .next t) : HostopSchedule t :=
  fun w hw => hs w (List.mem_of_mem_tail (step_moves h ▸ hw))

/-- Settles O38: a step answers a next state, and it keeps the invariants and the schedule. -/
theorem noStepStopsInAnInvariantState : Obligations.NoStepStopsInAnInvariantState := by
  intro s hs hsched
  obtain ⟨t, ht⟩ := step_progress hs hsched
  exact ⟨t, ht, everyStepKeepsTheInvariants s t hs ht, step_keeps_hostopSchedule hsched ht⟩

/-! ### Machines that differ in the receiver's pull -/

/-- The two machines are equal but for the receiver's pull on the data line. -/
def ReceiverTwins (t u : State) : Prop := u = { t with rxLow := u.rxLow }

/-- Another pull is carried along by every micro-step. -/
theorem selectMicro_setReceiver {k : Kind} {n : BitVec 3} {micro : State → Micro} (hm : selectMicro k n = some micro) (s : State)
    (low : Bool) : micro (s.setReceiver low) = ((micro s).1.setReceiver low, (micro s).2) := by
  cases selectMicro_form hm with
  | advance p v => cases p <;> rfl
  | shift => rfl
  | last p v => cases p <;> rfl

/-- Another pull is carried along by the completion action of every phase. -/
theorem complete_setReceiver (s : State) (low : Bool) :
    complete (s.setReceiver low) = mapNext (·.setReceiver low) (complete s) := by
  simp only [complete, State.setReceiver_phase]
  cases s.phase <;> simp only []
  case p4 =>
    by_cases hmore : s.idx.toNat + 1 < s.len.toNat
    · cases hread : memRead s.seg (s.idx.toNat + 1) <;> simp [completeP4, State.setReceiver, mapNext, hmore, hread]
    · simp [completeP4, State.setReceiver, mapNext, hmore]
  all_goals rfl

/-- Another pull is carried along by the executed tick. -/
theorem runSelected_setReceiver (s : State) (low : Bool) :
    runSelected complete (s.setReceiver low) = mapNext (·.setReceiver low) (runSelected complete s) := by
  simp only [runSelected, State.setReceiver_phase, State.setReceiver_stepCnt]
  cases hm : selectMicro (kindOf s.phase) s.stepCnt with
  | none => rfl
  | some micro =>
    exact runMicro_mapNext (f := (·.setReceiver low)) (selectMicro_setReceiver hm { s with lastUs := s.nowUs } low)
      (fun _ => complete_setReceiver _ low) fun _ => rfl

/-- Cases 1 to 3 of R108 do not read the receiver's pull. -/
theorem quietTick_setReceiver (T : Timing) (s : State) (low : Bool) :
    quietTick T (s.setReceiver low) = (quietTick T s).setReceiver low := by
  show State.recordRet (if s.phase != .idle && watchdogExpired T s then _ else _) = _
  unfold quietTick
  split <;> rfl

theorem execTick_setReceiver (s : State) (low : Bool) :
    execTick (s.setReceiver low) = mapNext (·.setReceiver low) (execTick s) := by
  have hen : executes Config.timing (s.setReceiver low) = executes Config.timing s := rfl
  rw [execTick, tickWith, hen, runSelected_setReceiver, quietTick_setReceiver, whenEnabled_mapNext (·.setReceiver low)]
  rfl

/-- No operation that a move can bring reads the receiver's pull. -/
theorem exec_receiverTwins {i : Instr} (hi : Movable i) (s : State) (low : Bool) :
    outcomesAgree ReceiverTwins (exec i s) (exec i (s.setReceiver low)) := by
  cases i
  case nop | rsvd6 | rsvd7 | isidle => rfl
  case tick =>
    show outcomesAgree ReceiverTwins (execTick s) (execTick (s.setReceiver low))
    rw [execTick_setReceiver]
    exact outcomesAgree_mapNext (R := ReceiverTwins) (f := (·.setReceiver low)) (fun _ => rfl) _
  case arm | clear | setbr | armRelc | armReld | armStrt | armDone => exact whenEnabled_next_agree rfl rfl rfl
  -- The rows of the other three levels are brought by no move.
  all_goals rcases hi with ⟨_, hw⟩ | ⟨_, hw⟩ <;> cases hw

/-- Settles O46: the two machines take the same move, and no operation that it brings reads the receiver's pull. -/
theorem receiverIsNeverObserved : Obligations.ReceiverIsNeverObserved := fun s low =>
  step_agree (u := s.setReceiver low) rfl rfl (fun _ => rfl) (fun _ => rfl) (fun _ _ _ => rfl) (fun _ _ => rfl)
    fun _ rest hi => exec_receiverTwins hi (s.consume rest) low

/-! ### The inputs and the watchdog -/

/-- A counter that advances wraps at 2^32 (R12). -/
theorem toNat_add_ofNat_time (now : Time) (d : Nat) : (now + BitVec.ofNat 32 d).toNat = (now.toNat + d) % 2 ^ 32 := by
  rw [BitVec.toNat_add, BitVec.toNat_ofNat, Nat.add_mod_mod]

/-- Settles O6: TIME adds to each counter its own amount, and RECEIVER sets the pull. -/
theorem timeAndReceiverMovesChangeInputsOnly : Obligations.TimeAndReceiverMovesChangeInputsOnly :=
  ⟨fun _ _ _ _ hm => ⟨_, step_time hm, toNat_add_ofNat_time _ _, toNat_add_ofNat_time _ _, rfl⟩,
    fun _ _ _ hm => step_env hm rfl⟩

/-- Settles O21: the watchdog's entry is case 2 of R108. -/
theorem watchdogEntryWritesPhaseOnly : Obligations.WatchdogEntryWritesPhaseOnly := by
  obtain ⟨-, -, hwatchdog, -⟩ := tickTakesOneOfFourCases
  exact fun T s hp hw => ⟨_, hwatchdog T s hp hw, rfl, rfl, rfl⟩

end Sys2Proof.Machine
